-- ==== Sys2Proof/Word.lean ====
section
/-! DEFINITION. The two widths the spec fixes: an 8-bit byte (frame bytes, station addresses, function codes) and
a 16-bit word (holding registers, register addresses on the wire, the CRC). Rules R9, R12. -/

namespace Sys2Proof

/-- One raw byte of a frame; bit 0 is the least significant (R12, R17). -/
abbrev Byte := BitVec 8

/-- A 16-bit unsigned value: a holding register, a wire address, a count, a CRC (R9, R12, R16). -/
abbrev Word := BitVec 16

end Sys2Proof
end

