-- ==== Sys2Proof/Config.lean ====
section
/-! DEFINITION. What an implementation fixes: the constants of R8, the OPEN parameters of R8 as plain data with
their legal ranges, and the free values (opaque: nothing can be proved about what they are). -/

namespace Sys2Proof

/-- COUNT_MAX, the clamp on a register count (R8, R120). -/
def Config.countMax : Nat := 127

/-- MIN_FRAME, the shortest frame the decoder accepts (R8, R106). -/
def Config.minFrame : Nat := 4

/-- CRC_INIT, the seed of every CRC computation (R8, R71). -/
def Config.crcInit : Word := 0xFFFF

/-- CRC_POLY_R, the reflected CRC polynomial (R8, R72). PRESUMED by the spec itself (GK1), log 12. -/
def Config.crcPolyR : Word := 0xA001

/-- EXC_ILLEGAL_FUNCTION, the only exception code (R8, R144, R161). -/
def Config.excIllegalFunction : Byte := 0x01

/-- TIMEOUT_CHAR_BITS times TIMEOUT_CHARS times one million, 11 * 3.5 * 1,000,000: the numerator of the inter-frame
timeout in microseconds over the baud rate (R89). -/
def Config.timeoutNumerator : Nat := 38500000

/-- The threshold R90 recommends to a platform with a tick of `tickNs` nanoseconds at `baud` bits per second:
the timeout of R89 divided by the tick period, rounded up. No rule uses it. -/
def Config.threshTicksFor (baud tickNs : Nat) : Nat :=
  (Config.timeoutNumerator * 1000 + baud * tickNs - 1) / (baud * tickNs)

/-- The OPEN parameters of R8, fixed for one machine. They are plain data and stand in the state, where no step
changes them, so that a statement over all states covers every legal machine. DESIGN CHOICE, log 4. -/
structure Params where
  /-- N_REGS, the number of holding registers. -/
  nRegs : Nat
  /-- FRAME_CAP, the capacity of the frame buffer in bytes. -/
  frameCap : Nat
  /-- RX_DEPTH, how many bytes the serial receiver holds unread. -/
  rxDepth : Nat
  /-- SERVER_ADDR, the initial ServerAddress. -/
  serverAddr : Byte
  /-- INIT_BASE, the base of the start-up register pattern. -/
  initBase : Word
  /-- THRESH_TICKS, the initial timer threshold in ticks. -/
  threshTicks : Nat
deriving DecidableEq, Repr, Inhabited

/-- The ranges R8, R186 and 92_eei_decisions.md D2 to D6 give the parameters. For RX_DEPTH the spec gives a default and
no range (R8, D7): its lower bound of 1 is the model's. DESIGN CHOICE, log 29. -/
abbrev Params.Legal (p : Params) : Prop :=
  1000 ≤ p.nRegs ∧ p.nRegs ≤ 65536 ∧ 256 ≤ p.frameCap ∧ 1 ≤ p.rxDepth ∧ p.serverAddr ≠ 0 ∧ 1 ≤ p.threshTicks

/-- The parameters of State.reset: the defaults of R8; SERVER_ADDR 0x11 and THRESH_TICKS 3, which R8 leaves OPEN,
as in the spec's own examples. DESIGN CHOICE, log 4. -/
def Config.defaultParams : Params :=
  { nRegs := 1000, frameCap := 256, rxDepth := 1, serverAddr := 0x11, initBase := 4000, threshTicks := 3 }

/-- The draw of R110: what a frame-buffer read at an offset at or above `len` gives. A free value, applied to a
counter so that every evaluation is a fresh one. Log 8. -/
opaque Config.freeByte : Nat → Byte

/-- Which of two pending handlers is served first when nothing says so (R168). A free value. Log 2. -/
opaque Config.freeIntakeFirst : Nat → Bool

end Sys2Proof
end

