-- ==== Sys2Proof/Machine/Bytes.lean ====
section
/-! DEFINITION. Byte halves of a word and the assembly of a word from bytes (R12, R36). -/

namespace Sys2Proof.Machine

/-- `w[15:8]` (R12). -/
def hi8 (w : Word) : Byte := w.extractLsb' 8 8

/-- `w[7:0]` (R12). -/
def lo8 (w : Word) : Byte := w.extractLsb' 0 8

/-- The big-endian 16-bit value of two bytes, hi * 256 + lo (R12, R36). -/
def be16 (hi lo : Byte) : Word := hi ++ lo

/-- A word as it is sent in every field but the CRC, high byte first (R36). -/
def beBytes (w : Word) : List Byte := [hi8 w, lo8 w]

end Sys2Proof.Machine
end

