-- ==== Sys2Proof/Syntax.lean ====
section
/-! DEFINITION. The instructions: one received frame at timeout expiry is one instruction, its opcode is the
function code (R13). One constructor per row of spec/opcode_table.json, with the operands R60 gives it. -/

namespace Sys2Proof

/-- The nine rows of the opcode map (R61). The station address and the CRC are the envelope of every frame and are
no operands. The payload of a Q-ANY request is never read (R55, R144). -/
inductive Instr where
  /-- 0x01, read coils: refused with the exception response (R139). -/
  | rdco
  /-- 0x02, read discrete inputs: refused with the exception response (R140). -/
  | rddi
  /-- 0x03, read holding registers (R119, format Q-RD R52). -/
  | rdhr (start count : Word)
  /-- 0x04, read input registers (R122, format Q-RD R52). -/
  | rdir (start count : Word)
  /-- 0x05, write single coil: refused with the exception response (R141). -/
  | wrsc
  /-- 0x06, write single register (R127, format Q-WS R53). -/
  | wrsr (reg val : Word)
  /-- 0x0F, write multiple coils: refused with the exception response (R142). -/
  | wrmc
  /-- 0x10, write multiple registers (R129, format Q-WM R54). `bytecount` is ignored (R133); `vals` are the values
  from offset 7 on, one for each register the count can name after the clamp to 127. -/
  | wrmr (start count : Word) (bytecount : Byte) (vals : List Word)
  /-- Every other function byte (R143). -/
  | other (func : Byte)
deriving DecidableEq, Repr, Inhabited

/-- Why a frame is no instruction for this server, in the order of the tests (R160, R167). -/
inductive Reject where
  /-- SHORT_FRAME: fewer than four bytes (R106). -/
  | shortFrame
  /-- ADDR_MISMATCH: byte 0 is not the server address (R107). -/
  | addrMismatch
  /-- CRC_FAIL: the CRC over the whole frame is not 0 (R108). -/
  | crcFail
deriving DecidableEq, Repr

/-- What the decoder makes of a frame: an instruction, or a rejection by name. -/
inductive Decoded where
  | instr (i : Instr)
  | reject (r : Reject)
deriving DecidableEq, Repr

/-- The instruction of a decoded frame, none for a rejected one. -/
def Decoded.instr? : Decoded → Option Instr
  | .instr i => some i
  | .reject _ => none

end Sys2Proof
end

