-- ==== Sys2Proof/WellFormed.lean ====
section
/-! DEFINITION. Which terms of Instr stand for a frame: the checks the inductive's types do not make. -/

namespace Sys2Proof

/-- The eight function codes the decoder names (R61). -/
def namedCodes : List Byte := [0x01, 0x02, 0x03, 0x04, 0x05, 0x06, 0x0F, 0x10]

/-- `other` carries none of the eight named codes (R143); a write-multiple carries one value for each register its
count names, at most 127 (R54, R130). -/
def Instr.wellFormed : Instr → Bool
  | .rdco => true
  | .rddi => true
  | .rdhr _ _ => true
  | .rdir _ _ => true
  | .wrsc => true
  | .wrsr _ _ => true
  | .wrmc => true
  | .wrmr _ count _ vals => decide (vals.length = min count.toNat Config.countMax)
  | .other func => decide (func ∉ namedCodes)

end Sys2Proof
end

