-- ==== Sys2Proof/Decode.lean ====
section
/-! DEFINITION. The frame decoder as a total function from the bytes of a frame to an instruction or a rejection by
name (R105 to R110, R60, R61), and after it the encoder, written from the request formats (R51 to R55). -/

namespace Sys2Proof

open Machine

/-- The bounded buffer read `B(k)`: the frame's byte, or the draw `fill k` at an offset the frame does not reach
(R12, R110). -/
def frameByte (fill : Nat → Byte) (frame : List Byte) (k : Nat) : Byte := frame[k]?.getD (fill k)

/-- The big-endian 16-bit field at offsets `k`, `k+1` (R36, R60). -/
def frameWord (B : Nat → Byte) (k : Nat) : Word := be16 (B k) (B (k + 1))

/-- How many values of a write-multiple the count can name: the clamp to 127 (R130). -/
def valueCount (count : Word) : Nat := min count.toNat Config.countMax

/-- The values of a write-multiple, from offset 7 on (R54, R129). -/
def frameValues (B : Nat → Byte) (n : Nat) : List Word := (List.range n).map fun i => frameWord B (7 + 2 * i)

/-- One more than the largest offset a command reads, 8 + 2 * 126 (R54, R120): how many draws one Decode can take. -/
def drawSpan : Nat := 261

/-- The dispatch on byte 1, all 8 bits, by equality, with each format's operands (R109, R60, R61). -/
def dispatchFrame (B : Nat → Byte) : Instr :=
  let func := B 1
  if func = 0x01 then .rdco
  else if func = 0x02 then .rddi
  else if func = 0x03 then .rdhr (frameWord B 2) (frameWord B 4)
  else if func = 0x04 then .rdir (frameWord B 2) (frameWord B 4)
  else if func = 0x05 then .wrsc
  else if func = 0x06 then .wrsr (frameWord B 2) (frameWord B 4)
  else if func = 0x0F then .wrmc
  else if func = 0x10 then
    .wrmr (frameWord B 2) (frameWord B 4) (B 6) (frameValues B (valueCount (frameWord B 4)))
  else .other func

/-- The decoder: the three tests in their order, then the dispatch (R105 to R109). `fill` gives the draws. -/
def decodeFrame (fill : Nat → Byte) (addr : Byte) (frame : List Byte) : Decoded :=
  if frame.length < Config.minFrame then .reject .shortFrame
  else if frame[0]? ≠ some addr then .reject .addrMismatch
  else if crc16 frame ≠ 0 then .reject .crcFail
  else .instr (dispatchFrame (frameByte fill frame))

/-! The encoder. -/

/-- The function code of an instruction (R61). -/
def Instr.opcode : Instr → Byte
  | .rdco => 0x01
  | .rddi => 0x02
  | .rdhr _ _ => 0x03
  | .rdir _ _ => 0x04
  | .wrsc => 0x05
  | .wrsr _ _ => 0x06
  | .wrmc => 0x0F
  | .wrmr _ _ _ _ => 0x10
  | .other func => func

/-- The payload of an instruction's request format (R52 to R55). A Q-ANY request is written with an empty payload. -/
def Instr.payload : Instr → List Byte
  | .rdco => []
  | .rddi => []
  | .rdhr start count => beBytes start ++ beBytes count
  | .rdir start count => beBytes start ++ beBytes count
  | .wrsc => []
  | .wrsr reg val => beBytes reg ++ beBytes val
  | .wrmc => []
  | .wrmr start count bytecount vals => beBytes start ++ beBytes count ++ bytecount :: vals.flatMap beBytes
  | .other _ => []

/-- The frame of an instruction for the station `addr`: address, function code, payload, CRC (R51, R63). -/
def encode (addr : Byte) (i : Instr) : List Byte := withCrc (addr :: i.opcode :: i.payload)

/-! The opcode table's numbering. -/

/-- The frame whose bytes from the function code on are the bytes of `w`, the first in bits 7..0, zeros above bit
`nbits`, at least as far as the two 16-bit operands; address before and CRC after it. Log 22. -/
def frameOfTableWord (addr : Byte) (nbits w : Nat) : List Byte :=
  withCrc (addr :: (List.range (max (nbits / 8) 6)).map fun k => BitVec.ofNat 8 (w % 2 ^ nbits / 2 ^ (8 * k)))

/-- What the decoder reads from an instruction whose bits are `w`, numbered as spec/opcode_table.json numbers them:
bit 0 is the least significant bit of the function code. -/
def decodeTableWord (nbits w : Nat) : Option Instr :=
  (decodeFrame (fun _ => 0) Config.defaultParams.serverAddr
    (frameOfTableWord Config.defaultParams.serverAddr nbits w)).instr?

end Sys2Proof
end

