-- ==== Sys2Proof/Machine/State.lean ====
section
/-! DEFINITION. The state as plain data (R15 to R32), the reasons a step can stop, the state after reset. -/

namespace Sys2Proof.Machine

/-- The timeout state machine (R19). -/
inductive TimerState where
  | idle
  | counting
  | expired
deriving DecidableEq, Repr, Inhabited

/-- The transceiver direction control (R25). -/
inductive Direction where
  | rx
  | tx
deriving DecidableEq, Repr, Inhabited

/-- One item of the output trace TX (R30, R147). -/
inductive TxItem where
  | dirTx
  | byte (b : Byte)
  | dirRx
deriving DecidableEq, Repr

/-- The events of R180. `serialStatus` is the model's own: it gives the boundary signals `dre` and `txc` any values
outside a transmission (R28, R29, 93_implementation_defined.md U15). Log 1, log 10. -/
inductive Event where
  /-- `Reset` (R181). -/
  | reset
  /-- `RxArrive(b)` of LINE (R94). -/
  | rxArrive (b : Byte)
  /-- `Tick` of TICKER (R81). -/
  | tick
  /-- `RxIntake` of INTAKE (R93). -/
  | rxIntake
  /-- `Decode(arr)` of DECODER (R103), with the bytes that arrive while it runs (R114) and how many waits of the
  transmitter the serial peripheral answers, `none` for all of them (R152). -/
  | decode (arr : List Byte) (stall : Option Nat)
  /-- `AppReadReg(i)` of APP (R172). -/
  | appReadReg (i : Nat)
  /-- `AppWriteReg(i, v)` of APP (R172). -/
  | appWriteReg (i : Nat) (v : Word)
  /-- `AppSetAddr(a)` of APP (R172, R173). -/
  | appSetAddr (a : Byte)
  /-- `AppSetBaud(t)` of APP (R172, R173). -/
  | appSetBaud (t : Nat)
  /-- The serial peripheral changes `dre` and `txc` outside a transmission (U15). -/
  | serialStatus (dre txc : Bool)
deriving DecidableEq, Repr, Inhabited

/-- The holding registers that do not hold their start-up value: (index, value) pairs, indices strictly rising
(`Memory.wf` in Machine/Ops.lean). The unit is one 16-bit register (R38, R40). Log 6. -/
abbrev Memory := List (Nat × Word)

/-- The architectural state of R15, then the model's own fields. -/
structure State where
  /-- The OPEN parameters of R8; no step changes them. The model's own. Log 4. -/
  params : Params
  /-- HREG, the holding-register store (R16). -/
  hreg : Memory
  /-- The bytes of the frame buffer below `len`, first byte received first (R17, R18). Log 7. -/
  buf : List Byte
  /-- `tmr.st` (R19, R21). -/
  tmrSt : TimerState
  /-- `tmr.cnt`, the idle count (R20). -/
  tmrCnt : Nat
  /-- ServerAddress (R22). -/
  addr : Byte
  /-- The timer threshold in ticks (R23). -/
  thresh : Nat
  /-- The receive-interrupt enable, the critical-section flag (R24). -/
  rxie : Bool
  /-- The transceiver direction (R25). -/
  dir : Direction
  /-- The serial receive register as a queue, oldest byte first (R27). -/
  rxq : List Byte
  /-- Transmit buffer empty (R28). -/
  dre : Bool
  /-- Transmission complete (R29). -/
  txc : Bool
  /-- The model-only mark of the spec: undefined behaviour has occurred (R31, R163). -/
  fault : Bool
  /-- The output trace TX, oldest item first (R30, R147). Log 15. -/
  tx : List TxItem
  /-- The values AppReadReg returned, oldest first (R172). The model's own. Log 15. -/
  appOut : List Word
  /-- How many more waits of the transmitter the serial peripheral answers in the Decode in progress; `none`: it is
  live (R152, 92_eei_decisions.md D17). The model's own. Log 10. -/
  stall : Option Nat
  /-- The environment's coming events, oldest first (R44, R200). The model's own. Log 1. -/
  agenda : List Event
  /-- The counter the free values are applied to. The model's own. Log 8. -/
  draws : Nat
deriving DecidableEq, Repr, Inhabited

end Sys2Proof.Machine

/-- The whole state after a Fault, of which nothing may be claimed (R163, R113, U18). A free value. Log 9. -/
opaque Sys2Proof.Config.afterFault : Nat → Sys2Proof.Machine.State

namespace Sys2Proof.Machine

/-- Why the machine stops with a fault. -/
inductive Fault where
  /-- `Fault(StoreIndexOutOfRange)` (R163): raised by a meaning at its first store access with an index at or above
  N_REGS, and by the step in the faulted state it leads to, in which no event but Reset is enabled. Safe: the spec
  calls what the hardware does undefined. -/
  | storeIndexOutOfRange
deriving DecidableEq, Repr

/-- Why the model refuses. Every one but the first is a scheduled event whose guard in R180 is false, so that the
agenda is no execution of the block; each is safe. Log 27. -/
inductive Refusal where
  /-- An instruction that has no meaning yet, by its mnemonic; raised by no arm. Safe. -/
  | notModelled (mnemonic : String)
  /-- A scheduled Decode without a pending expiry (R103). Safe. -/
  | decodeNotPending
  /-- A scheduled RxIntake whose guard is false (R93). Safe. -/
  | intakeNotPending
  /-- AppSetBaud outside state Idle (R173, U8). Safe. -/
  | baudNotIdle
  /-- AppSetBaud with a threshold of 0 (R180: t at least 1). Safe. -/
  | thresholdZero
  /-- An APP event or a change of the serial status while a Decode is in progress (R170, R151). Safe. -/
  | decodeInProgress
deriving DecidableEq, Repr

/-- The state after `Reset` and the boot sequence, for given parameters (R32, R181, R185). The store holds its
start-up pattern (nothing listed). `dre` and `txc`: log 5. -/
def State.resetWith (p : Params) : State :=
  { params := p
    hreg := []
    buf := []
    tmrSt := .idle
    tmrCnt := 0
    addr := p.serverAddr
    thresh := p.threshTicks
    rxie := true
    dir := .rx
    rxq := []
    dre := false
    txc := false
    fault := false
    tx := []
    appOut := []
    stall := none
    agenda := []
    draws := 0 }

/-- The machine right after reset, with the parameters `Config.defaultParams` (R32). -/
def State.reset : State := State.resetWith Config.defaultParams

end Sys2Proof.Machine
end

