-- ==== Sys2Proof/Machine/Ops.lean ====
section
/-! DEFINITION. The named operations over the store, the receive queue and the handlers: the canonical memory form,
register reads and writes, `raise Fault`, entering the decoder and returning from it. -/

namespace Sys2Proof.Machine

/-! The holding-register store. -/

/-- What an index that is not listed holds: the start-up pattern `(INIT_BASE + i) mod 65536` (R16, R32). -/
def Memory.unlisted (base : Word) (i : Nat) : Word := base + BitVec.ofNat 16 i

/-- The value of register `i` (R16). -/
def Memory.get (base : Word) (i : Nat) : Memory → Word
  | [] => Memory.unlisted base i
  | (j, v) :: rest => if i = j then v else Memory.get base i rest

/-- Write register `i`. The canonical form is kept: rising indices, no entry that holds its start-up value. Log 6. -/
def Memory.set (base : Word) (i : Nat) (v : Word) : Memory → Memory
  | [] => if v = Memory.unlisted base i then [] else [(i, v)]
  | (j, w) :: rest =>
    if i < j then
      if v = Memory.unlisted base i then (j, w) :: rest else (i, v) :: (j, w) :: rest
    else if i = j then
      if v = Memory.unlisted base i then rest else (i, v) :: rest
    else (j, w) :: Memory.set base i v rest

/-- The canonical form: indices strictly rising and below N_REGS, no entry equal to what an unlisted index holds. -/
abbrev Memory.wf (base : Word) (nRegs : Nat) (m : Memory) : Prop :=
  m.Pairwise (fun p q => p.1 < q.1) ∧ ∀ p ∈ m, p.1 < nRegs ∧ p.2 ≠ Memory.unlisted base p.1

/-- The content of holding register `i`, for a total reading of the store (R16). -/
def State.regAt (s : State) (i : Nat) : Word := Memory.get s.params.initBase i s.hreg

/-- `read(index)` of the store, defined only for `0 <= index < N_REGS` (R16, R34). -/
def State.readReg (i : Nat) (s : State) : Option Word := if i < s.params.nRegs then some (s.regAt i) else none

/-- `write(index, value)` of the store, defined only for `0 <= index < N_REGS` (R16, R34); every register of the
range is an ordinary one, register 0 too. -/
def State.writeReg (i : Nat) (v : Word) (s : State) : Option State :=
  if i < s.params.nRegs then some { s with hreg := Memory.set s.params.initBase i v s.hreg } else none

/-- The read of `n` registers from `start` on in ascending order, one access each; none at the first access outside
the store (R40, R119, R121). -/
def State.readRegs (s : State) (start : Nat) : Nat → Option (List Word)
  | 0 => some []
  | n + 1 =>
    match s.readReg start with
    | none => none
    | some v => (s.readRegs (start + 1) n).map (v :: ·)

/-- The writes of a list of values to the registers from `start` on in ascending order, one access each; none at the
first access outside the store (R40, R129, R131). -/
def State.writeRegs (start : Nat) : List Word → State → Option State
  | [], s => some s
  | v :: vs, s =>
    match s.writeReg start v with
    | none => none
    | some t => State.writeRegs (start + 1) vs t

/-! The frame buffer and the receive register. -/

/-- `len`, the logical length of the frame buffer (R18). Log 7. -/
def State.len (s : State) : Nat := s.buf.length

/-- The draws of the Decode that runs in this state (R110). Log 8. -/
def State.drawAt (s : State) (k : Nat) : Byte := Config.freeByte (s.draws + k)

/-- The bounded buffer read `B(k)` (R12, R110). -/
def State.bufByte (s : State) (k : Nat) : Byte := frameByte s.drawAt s.buf k

/-- A byte from the line: appended to the receive queue, or lost when the queue is full (R94). Log 24. -/
def State.receive (b : Byte) (s : State) : State :=
  if s.rxq.length < s.params.rxDepth then { s with rxq := s.rxq ++ [b] } else s

/-- The bytes that arrive while a Decode runs, each offered to the receiver in order (R114). Log 16. -/
def State.receiveAll (arr : List Byte) (s : State) : State := arr.foldl (fun t b => t.receive b) s

/-! Taking an exception and returning. -/

/-- `raise Fault(reason)`: `fault <- 1`, and nothing about the rest of the machine is known from here on (R163, R113).
What the model's own fields of the environment hold is kept. Log 9. -/
def raiseFault (s : State) : State :=
  { Config.afterFault s.draws with
    params := s.params
    fault := true
    agenda := s.agenda
    draws := s.draws + 1 }

/-- Entering the decoder: receive interrupts are suspended, nothing else is saved or changed (R104, R169). The draws
this Decode can take are set aside, and what the serial peripheral will do is fixed. -/
def enterDecode (stall : Option Nat) (s : State) : State :=
  { s with rxie := false, stall := stall, draws := s.draws + drawSpan }

/-- The epilogue, the return from the decoder on every path that neither faults nor is stuck: one residual byte of the
receive register is discarded, the buffer length reset, the timer idle, receive interrupts released (R115 to R117,
R87, R170). -/
def leaveDecode (s : State) : State :=
  { s with rxq := s.rxq.tail, buf := [], tmrSt := .idle, tmrCnt := 0, rxie := true, stall := none }

/-- `Reset` with the boot sequence (R181, R182, R185): every element takes its reset value and `fault` is cleared.
What was sent stays sent, and the environment's fields go on. Log 15. -/
def resetEvent (s : State) : State :=
  { State.resetWith s.params with tx := s.tx, appOut := s.appOut, agenda := s.agenda, draws := s.draws }

end Sys2Proof.Machine
end

