-- ==== Sys2Proof/Machine/Flags.lean ====
section
/-! DEFINITION. The status bits. The block has no arithmetic flags and no condition codes (R31); these are the
conditions the events are guarded by. -/

namespace Sys2Proof.Machine

/-- The "received" status: the receive register holds a byte (R27). -/
def State.received (s : State) : Bool := !s.rxq.isEmpty

/-- The timer's enable: it counts exactly in state Counting (R21). -/
def State.timerEnabled (s : State) : Bool := s.tmrSt == .counting

/-- A Decode is in progress between two events: its transmitter waits, with the direction at TX (R25, R148, R152). -/
def State.decoding (s : State) : Bool := s.dir == .tx

/-- The guard of `RxIntake`: a byte is pending and receive interrupts are enabled (R93, R165). -/
def State.intakePending (s : State) : Bool := s.received && s.rxie

/-- `RxIntake` is the very next event: its guard holds and no expiry is pending (R93, R168). -/
def State.intakeForced (s : State) : Bool := s.intakePending && s.tmrSt != .expired

/-- The guard of `Decode`: an expiry is pending and no Decode is in progress (R103, R165). -/
def State.decodePending (s : State) : Bool := s.tmrSt == .expired && !s.decoding

end Sys2Proof.Machine
end

