-- ==== Sys2Proof/Machine/App.lean ====
section
/-! DEFINITION. The application surface (R172, R173): each event one atomic access. -/

namespace Sys2Proof.Machine

/-- No APP event falls inside a Decode (R170, R172). -/
def outsideDecode (s : State) (run : Host.Outcome State Fault Refusal) : Host.Outcome State Fault Refusal :=
  if s.decoding then .refused .decodeInProgress else run

/-- `AppReadReg(i)`: returns the register's value; a Fault outside the store (R172). -/
def appReadReg (i : Nat) (s : State) : Host.Outcome State Fault Refusal :=
  outsideDecode s <|
    match s.readReg i with
    | none => .next (raiseFault s)
    | some v => .next { s with appOut := s.appOut ++ [v] }

/-- `AppWriteReg(i, v)`: a Fault outside the store (R172). -/
def appWriteReg (i : Nat) (v : Word) (s : State) : Host.Outcome State Fault Refusal :=
  outsideDecode s <|
    match s.writeReg i v with
    | none => .next (raiseFault s)
    | some t => .next t

/-- `AppSetAddr(a)`: every 8-bit value is accepted (R173, U7). Log 19. -/
def appSetAddr (a : Byte) (s : State) : Host.Outcome State Fault Refusal :=
  outsideDecode s (.next { s with addr := a })

/-- `AppSetBaud(t)`: defined in state Idle only, for a threshold of at least 1 (R173, R180, U8). Log 19. -/
def appSetBaud (t : Nat) (s : State) : Host.Outcome State Fault Refusal :=
  outsideDecode s <|
    if s.tmrSt ≠ .idle then .refused .baudNotIdle
    else if t = 0 then .refused .thresholdZero
    else .next { s with thresh := t }

/-- The boundary signals take any values outside a transmission (R28, R29, U15). Log 10. -/
def serialStatus (dre txc : Bool) (s : State) : Host.Outcome State Fault Refusal :=
  outsideDecode s (.next { s with dre := dre, txc := txc })

end Sys2Proof.Machine
end

