-- ==== Sys2Proof/Machine/Operands.lean ====
section
/-! DEFINITION. The operand forms of the commands and the layouts of the responses (R56 to R60, R120). The request
operands themselves are assembled by the decoder (Sys2Proof/Decode.lean, R60). -/

namespace Sys2Proof.Machine

/-- `Clamp(start, count)`: at most 127 registers, and not beyond the table if `start` is in range; over unbounded
integers (R120, R123, R130). -/
def clamp (nRegs start count : Nat) : Nat :=
  if start < nRegs ∧ nRegs < start + min count Config.countMax then nRegs - start else min count Config.countMax

/-- The clamped count of a command with these operands (R119, R129). -/
def State.clampedCount (s : State) (start count : Word) : Nat := clamp s.params.nRegs start.toNat count.toNat

/-- Format P-RD: address and function of the request, byte count, values high byte first, CRC (R56). -/
def readResponse (addr func : Byte) (vals : List Word) : List Byte :=
  withCrc (addr :: func :: BitVec.ofNat 8 (2 * vals.length) :: vals.flatMap beBytes)

/-- Format P-WM: address, function, start and the number of registers written, CRC (R58). Log 13. -/
def writeResponse (addr func : Byte) (start : Word) (count : Nat) : List Byte :=
  withCrc (addr :: func :: (beBytes start ++ beBytes (BitVec.ofNat 16 count)))

/-- Format P-EXC: address, function with bit 7 set, the one exception code, CRC (R59). -/
def exceptionResponse (addr func : Byte) : List Byte :=
  withCrc [addr, func ||| 0x80, Config.excIllegalFunction]

end Sys2Proof.Machine
end

