-- ==== Sys2Proof/Machine/Transmitter.lean ====
section
/-! DEFINITION. The blocking transmitter (R147 to R158), byte by byte over the boundary signals `dre` and `txc`. -/

namespace Sys2Proof.Machine

/-- The serial peripheral answers one wait of the transmitter, unless it has stopped answering (R152). Log 10. -/
def State.answer (s : State) : Option State :=
  match s.stall with
  | none => some s
  | some 0 => none
  | some (k + 1) => some { s with stall := some k }

/-- `wait until dre = 1` (R149): none if it never is. -/
def waitDre (s : State) : Option State :=
  if s.dre then some s else s.answer.map fun t => { t with dre := true }

/-- `wait until txc = 1` (R150): the last byte has left the line, so the data register is empty too. None if it never
is. Log 11. -/
def waitTxc (s : State) : Option State :=
  if s.txc then some s else s.answer.map fun t => { t with dre := true, txc := true }

/-- Write one byte to the transmit data register: it goes to the line, and neither condition holds any more, so that
no stale `txc` can end the completion wait (R30, R149, R150). Log 11. -/
def writeData (b : Byte) (s : State) : State := { s with tx := s.tx ++ [.byte b], dre := false, txc := false }

/-- The byte loop, in ascending order, each byte once (R149). The second component says whether it ended. -/
def sendBytes : List Byte → State → State × Bool
  | [], s => (s, true)
  | b :: bs, s =>
    match waitDre s with
    | none => (s, false)
    | some t => sendBytes bs (writeData b t)

/-- `Transmit(resp)` (R147): direction to TX, the bytes, the completion wait, direction back to RX. When the serial
peripheral stops answering, the transmitter stays where it waits: `dir = TX` in the result says that it is stuck
there (R152, U10). Log 10. -/
def transmit (resp : List Byte) (s : State) : State :=
  match sendBytes resp { s with dir := .tx, tx := s.tx ++ [.dirTx] } with
  | (t, false) => t
  | (t, true) =>
    match waitTxc t with
    | none => t
    | some u => { u with dir := .rx, tx := u.tx ++ [.dirRx] }

/-- What a completed transmission adds to the trace: one bracketed group (R147, R157). -/
def txGroup (resp : List Byte) : List TxItem := .dirTx :: (resp.map .byte ++ [.dirRx])

end Sys2Proof.Machine
end

