-- ==== Sys2Proof/Machine/Reads.lean ====
section
/-! DEFINITION. The read commands RDHR and RDIR (R119 to R126). -/

namespace Sys2Proof.Machine

/-- `ReadRegisters` (R119): the clamped number of registers in ascending order, then the response; a Fault at the
first access outside the store. `func` is the function code of the command, which frame byte 1 holds. Log 20. -/
def readRegisters (func : Byte) (start count : Word) (s : State) : Host.Outcome State Fault Refusal :=
  match s.readRegs start.toNat (s.clampedCount start count) with
  | none => .fault .storeIndexOutOfRange
  | some vals => .next (transmit (readResponse (s.bufByte 0) func vals) s)

/-- RDHR, read holding registers, function code 0x03 (R119). -/
def execRdhr (start count : Word) (s : State) : Host.Outcome State Fault Refusal := readRegisters 0x03 start count s

/-- RDIR, read input registers, function code 0x04: the same store and the same behaviour (R122). -/
def execRdir (start count : Word) (s : State) : Host.Outcome State Fault Refusal := readRegisters 0x04 start count s

end Sys2Proof.Machine
end

