-- ==== Sys2Proof/Machine/Refused.lean ====
section
/-! DEFINITION. The commands answered with the illegal-function exception, and the unknown function codes
(R139 to R146). -/

namespace Sys2Proof.Machine

/-- `IllegalFunction` (R144): the exception response for the function code, whatever the payload; nothing else is
read or written. -/
def illegalFunction (func : Byte) (s : State) : Host.Outcome State Fault Refusal :=
  .next (transmit (exceptionResponse (s.bufByte 0) func) s)

/-- RDCO, read coils, function code 0x01 (R139). -/
def execRdco (s : State) : Host.Outcome State Fault Refusal := illegalFunction 0x01 s

/-- RDDI, read discrete inputs, function code 0x02 (R140). -/
def execRddi (s : State) : Host.Outcome State Fault Refusal := illegalFunction 0x02 s

/-- WRSC, write single coil, function code 0x05: nothing is written (R141). -/
def execWrsc (s : State) : Host.Outcome State Fault Refusal := illegalFunction 0x05 s

/-- WRMC, write multiple coils, function code 0x0F: nothing is written (R142). -/
def execWrmc (s : State) : Host.Outcome State Fault Refusal := illegalFunction 0x0F s

/-- OTHER, every other function code: no response, no state read or written (R143, R145, R146). -/
def execOther (_func : Byte) (s : State) : Host.Outcome State Fault Refusal := .next s

end Sys2Proof.Machine
end

