-- ==== Sys2Proof/Machine/Writes.lean ====
section
/-! DEFINITION. The write commands WRSR and WRMR (R127 to R138). -/

namespace Sys2Proof.Machine

/-- WRSR, write single register, function code 0x06 (R127, R128): the value goes to the register, the response is the
whole frame as it stands in the buffer; a register outside the store is a Fault. -/
def execWrsr (reg val : Word) (s : State) : Host.Outcome State Fault Refusal :=
  match s.writeReg reg.toNat val with
  | none => .fault .storeIndexOutOfRange
  | some t => .next (transmit s.buf t)

/-- WRMR, write multiple registers, function code 0x10 (R129 to R134): the clamped number of values in ascending
order, then the response with the clamped count; a Fault at the first access outside the store. `_bytecount` is read
by nothing (R133). Log 13. -/
def execWrmr (start count : Word) (_bytecount : Byte) (vals : List Word) (s : State) :
    Host.Outcome State Fault Refusal :=
  match State.writeRegs start.toNat (vals.take (s.clampedCount start count)) s with
  | none => .fault .storeIndexOutOfRange
  | some t => .next (transmit (writeResponse (s.bufByte 0) 0x10 start (s.clampedCount start count)) t)

end Sys2Proof.Machine
end

