-- ==== Sys2Proof/Machine/Dispatch.lean ====
section
/-! DEFINITION. The opcode map of R61: one arm per instruction. -/

namespace Sys2Proof.Machine

def exec (i : Instr) (s : State) : Host.Outcome State Fault Refusal :=
  match i with
  | .rdco => Sys2Proof.Machine.execRdco s
  | .rddi => Sys2Proof.Machine.execRddi s
  | .rdhr start count => Sys2Proof.Machine.execRdhr start count s
  | .rdir start count => Sys2Proof.Machine.execRdir start count s
  | .wrsc => Sys2Proof.Machine.execWrsc s
  | .wrsr reg val => Sys2Proof.Machine.execWrsr reg val s
  | .wrmc => Sys2Proof.Machine.execWrmc s
  | .wrmr start count bytecount vals => Sys2Proof.Machine.execWrmr start count bytecount vals s
  | .other func => Sys2Proof.Machine.execOther func s

end Sys2Proof.Machine
end

