-- ==== Sys2Proof/Machine/Timer.lean ====
section
/-! DEFINITION. The inter-frame timeout timer (R79 to R92). -/

namespace Sys2Proof.Machine

/-- The rearm of the intake path: the idle count restarts in every state; Idle and Counting go to Counting, a pending
expiry stays pending (R82, R83, R84). -/
def rearm (s : State) : State :=
  match s.tmrSt with
  | .idle => { s with tmrCnt := 0, tmrSt := .counting }
  | .counting => { s with tmrCnt := 0 }
  | .expired => { s with tmrCnt := 0 }

/-- `Tick`: in Counting the idle count goes up, and at the threshold the timer expires and stops; in Idle and Expired
nothing changes (R81, R85, R86). -/
def tick (s : State) : State :=
  match s.tmrSt with
  | .counting =>
    if s.tmrCnt + 1 = s.thresh then { s with tmrCnt := s.tmrCnt + 1, tmrSt := .expired }
    else { s with tmrCnt := s.tmrCnt + 1 }
  | .idle => s
  | .expired => s

end Sys2Proof.Machine
end

