-- ==== Sys2Proof/Machine/Intake.lean ====
section
/-! DEFINITION. The byte intake path (R93 to R102). -/

namespace Sys2Proof.Machine

/-- Step (c): the byte is appended if capacity remains, otherwise silently dropped (R96, R97). -/
def append (b : Byte) (s : State) : State :=
  if s.len < s.params.frameCap then { s with buf := s.buf ++ [b] } else s

/-- `RxIntake`: read the byte, which removes it from the receive register; rearm; append; in this order (R95 to R97).
None if no byte is there. -/
def intake (s : State) : Option State :=
  match s.rxq with
  | [] => none
  | b :: rest => some (append b (rearm { s with rxq := rest }))

end Sys2Proof.Machine
end

