-- ==== Sys2Proof/Machine/Events.lean ====
section
/-! DEFINITION. The step relation of R180: which event comes next, what each event does, the whole Decode event. -/

namespace Sys2Proof.Machine

/-! The Decode event. -/

/-- Reading the instruction: the decoder on the frame as it stands in the buffer (R13, R48, R105 to R110). -/
def fetch (s : State) : Decoded := decodeFrame s.drawAt s.addr s.buf

/-- The end of a Decode: the bytes that arrived meanwhile are offered to the receiver, then the epilogue runs. While
the transmitter is stuck the event does not end, and only the arrivals happen (R114 to R117, R152). -/
def finishDecode (arr : List Byte) (s : State) : State :=
  if s.decoding then s.receiveAll arr else leaveDecode (s.receiveAll arr)

/-- What becomes of a Decode after the command: it ends; a Fault abandons it (R113, R163); a refusal is passed on. -/
def afterCommand (arr : List Byte) (s : State) :
    Host.Outcome State Fault Refusal → Host.Outcome State Fault Refusal
  | .next t => .next (finishDecode arr t)
  | .fault .storeIndexOutOfRange => .next (raiseFault s)
  | .refused r => .refused r

/-- `Decode(arr)` (R105): entry, validation and dispatch, the command with its transmission, the epilogue. A rejected
frame has no effect but the epilogue (R112). -/
def decodeEvent (arr : List Byte) (stall : Option Nat) (s : State) : Host.Outcome State Fault Refusal :=
  match fetch s with
  | .reject _ => .next (finishDecode arr (enterDecode stall s))
  | .instr i => afterCommand arr (enterDecode stall s) (exec i (enterDecode stall s))

/-! The step. -/

/-- The effect of one event under its guard (R180). A false guard is refused: the agenda is no execution. Log 27. -/
def runEvent (e : Event) (s : State) : Host.Outcome State Fault Refusal :=
  match e with
  | .reset => .next (resetEvent s)
  | .rxArrive b => .next (s.receive b)
  | .tick => .next (tick s)
  | .rxIntake =>
    if s.intakePending then
      match intake s with
      | none => .refused .intakeNotPending
      | some t => .next t
    else .refused .intakeNotPending
  | .decode arr stall => if s.decodePending then decodeEvent arr stall s else .refused .decodeNotPending
  | .appReadReg i => appReadReg i s
  | .appWriteReg i v => appWriteReg i v s
  | .appSetAddr a => appSetAddr a s
  | .appSetBaud t => appSetBaud t s
  | .serialStatus dre txc => serialStatus dre txc s

/-- The next event when the agenda is empty: a pending handler is served, in either order if both are pending,
otherwise the tick source ticks (R168, R200, 92_eei_decisions.md D23). Log 2. -/
def idleEvent (s : State) : Event :=
  if s.decodePending then
    if s.intakePending && Config.freeIntakeFirst s.draws then .rxIntake else .decode [] none
  else .tick

/-- The agenda after a forced intake: an intake at its head was this one. Log 3. -/
def dropIntake : List Event → List Event
  | .rxIntake :: rest => rest
  | agenda => agenda

/-- Which event comes next, and what is left of the agenda: a scheduled Reset before all else; RxIntake at once where
the scheduling constraint of R93 and R180 asks for it; then the head of the agenda. Log 1, log 3. -/
def nextEvent (s : State) : Event × List Event :=
  match s.agenda with
  | .reset :: rest => (.reset, rest)
  | agenda =>
    if s.intakeForced then (.rxIntake, dropIntake agenda)
    else
      match agenda with
      | e :: rest => (e, rest)
      | [] => (idleEvent s, [])

/-- The state an event runs in: it has left the agenda, and the free values move on. -/
def beginEvent (rest : List Event) (s : State) : State := { s with agenda := rest, draws := s.draws + 1 }

/-- One step of the block: one event (R44, R180). `fault = 0` is a guard of every event but Reset (R163). -/
def machineStep (s : State) : Host.Outcome State Fault Refusal :=
  let (e, rest) := nextEvent s
  if s.fault && e != .reset then .fault .storeIndexOutOfRange
  else runEvent e (beginEvent rest s)

/-- The state in which the frame of a table word stands in the buffer, its expiry is pending and its Decode is the
next event: what the environment's bytes and Ticks would have brought about. Log 22. -/
def placeFrame (s : State) (nbits w : Nat) : State :=
  { s with
    buf := frameOfTableWord s.addr nbits w
    tmrSt := .expired
    dir := .rx
    fault := false
    agenda := .decode [] none :: s.agenda }

end Sys2Proof.Machine
end

