-- ==== Sys2Proof/Machine/Step.lean ====
section
/-! DEFINITION. The step of the machine, and the placing of an instruction where the next step runs it. -/

namespace Sys2Proof.Machine

/-- One step: one event of R180 (`machineStep` in Machine/Events.lean). -/
def step : State → Host.Outcome State Fault Refusal := machineStep

/-- The state whose very next step decodes and runs the instruction with the bits `w` (`placeFrame`). Log 22. -/
def State.withFetchWord (s : State) (nbits w : Nat) : State := placeFrame s nbits w

end Sys2Proof.Machine
end

