-- ==== Sys2Proof/Safety.lean ====
section
/-! DEFINITION. What the claims call a sound state and a completed run: the invariants of R32 and the quiescence of
R200. -/

namespace Sys2Proof.Machine

/-- What R32 says of a state outside a Decode: no Decode in progress, receive interrupts enabled; an idle timer has an
empty buffer (iii) and, by R87 and R32, a count of 0; a counting timer has taken a byte in (ii) and is below its
threshold (iv). -/
abbrev State.Ready (s : State) : Prop :=
  s.dir = .rx ∧ s.rxie = true ∧
  (s.tmrSt = .idle → s.buf = [] ∧ s.tmrCnt = 0) ∧
  (s.tmrSt = .counting → s.buf ≠ [] ∧ s.tmrCnt < s.thresh)

/-- A Decode stuck in its transmitter: direction TX, receive interrupts suspended, the expiry not yet cleared
(R152). -/
abbrev State.Stuck (s : State) : Prop := s.dir = .tx ∧ s.rxie = false ∧ s.tmrSt = .expired

/-- The invariant of every state without a Fault (R32): the store in its canonical form and within its N_REGS cells,
buffer, count, threshold and receive queue within their ranges (R16, R18, R20, R23, R27). -/
abbrev State.Sound (s : State) : Prop :=
  Memory.wf s.params.initBase s.params.nRegs s.hreg ∧
  s.len ≤ s.params.frameCap ∧
  s.tmrCnt ≤ s.thresh ∧ 1 ≤ s.thresh ∧
  s.rxq.length ≤ s.params.rxDepth ∧
  (s.Ready ∨ s.Stuck)

/-- The machine's invariant: legal parameters, and a sound state unless a Fault has occurred, after which nothing is
claimed (R163). -/
abbrev State.Inv (s : State) : Prop := s.params.Legal ∧ (s.fault = false → s.Sound)

/-- The block is quiescent: a finite run is complete here (R200). -/
abbrev State.quiescent (s : State) : Prop :=
  s.tmrSt = .idle ∧ s.buf = [] ∧ s.rxq = [] ∧ s.rxie = true ∧ s.dir = .rx ∧ s.fault = false

/-- `Decode(arr)` is the next event: no Fault, an expiry pending, no Decode in progress, and the agenda says so
(R103). -/
abbrev State.decodeNext (s : State) (arr : List Byte) (stall : Option Nat) (rest : List Event) : Prop :=
  s.fault = false ∧ s.tmrSt = .expired ∧ s.dir = .rx ∧ s.agenda = .decode arr stall :: rest

/-- The scheduled event `e` is the next one: no Fault, and no intake is due before it (R93, R180). -/
abbrev State.eventNext (s : State) (e : Event) (rest : List Event) : Prop :=
  s.fault = false ∧ s.agenda = e :: rest ∧ s.intakeForced = false

/-- The serial peripheral is live for the Decode in progress (R152, 92_eei_decisions.md D17). -/
abbrev State.live (s : State) : Prop := s.stall = none

end Sys2Proof.Machine
end

