-- ==== Sys2Proof/Certificates/Slice0/Obligations.lean ====
section
/-! DEFINITION. The statements for the provers. Each docstring names the rule of the spec a statement formalises, and
the log entry where it rests on a choice of the model. -/

open Sys2Proof Sys2Proof.Machine

/-! Encoding. -/

/-- Decoding an encoded well-formed instruction gives it back, for every station address, whatever the draws: no
operand of any format is dropped (R51 to R55, R60, R61). -/
def Obligations.DecodeOfEncodeIsInstruction : Prop :=
  ∀ (i : Instr) (addr : Byte) (fill : Nat → Byte), i.wellFormed = true →
    decodeFrame fill addr (encode addr i) = .instr i

/-- Frames the spec writes out decode to the instructions they stand for (95_test_vectors.md, sections 5 to 8).
Their CRC bytes are computed with the polynomial 0xA001 of log 12 (PRESUMED, GK1). -/
def Obligations.SpecFramesDecode : Prop :=
  decodeFrame (fun _ => 0) 0x11 [0x11, 0x03, 0x00, 0x6B, 0x00, 0x03, 0x76, 0x87] = .instr (.rdhr 0x6B 3) ∧
  decodeFrame (fun _ => 0) 0x11 [0x11, 0x04, 0x00, 0x6B, 0x00, 0x03, 0xC3, 0x47] = .instr (.rdir 0x6B 3) ∧
  decodeFrame (fun _ => 0) 0x11 [0x11, 0x06, 0x00, 0x01, 0x00, 0x2A, 0x5B, 0x45] = .instr (.wrsr 1 42) ∧
  decodeFrame (fun _ => 0) 0x11 [0x11, 0x10, 0x00, 0x02, 0x00, 0x02, 0x04, 0x12, 0x34, 0xAB, 0xCD, 0xDC, 0xA5] =
    .instr (.wrmr 2 2 4 [0x1234, 0xABCD]) ∧
  decodeFrame (fun _ => 0) 0x11 [0x11, 0x01, 0xCC, 0x20] = .instr .rdco ∧
  decodeFrame (fun _ => 0) 0x11 [0x11, 0x16, 0x00, 0x00, 0x00, 0x01, 0x8B, 0x59] = .instr (.other 0x16) ∧
  decodeFrame (fun _ => 0) 0x11 [0x11, 0x03, 0x00, 0x6B, 0x00, 0x03, 0x87, 0x76] = .reject .crcFail

/-- R61 and R60: a frame that passes the three tests is dispatched on all 8 bits of byte 1 by equality, with the
operands of its format assembled big-endian from their offsets; bytes at offsets the frame does not reach are the
draws `fill` (R110). -/
def Obligations.DispatchFollowsOpcodeMap : Prop :=
  ∀ (fill : Nat → Byte) (addr : Byte) (frame : List Byte),
    4 ≤ frame.length → frame[0]? = some addr → crc16 frame = 0 →
    let B := fun k => (frame[k]?).getD (fill k)
    (B 1 = 0x01 → decodeFrame fill addr frame = .instr .rdco) ∧
    (B 1 = 0x02 → decodeFrame fill addr frame = .instr .rddi) ∧
    (B 1 = 0x03 → decodeFrame fill addr frame = .instr (.rdhr (be16 (B 2) (B 3)) (be16 (B 4) (B 5)))) ∧
    (B 1 = 0x04 → decodeFrame fill addr frame = .instr (.rdir (be16 (B 2) (B 3)) (be16 (B 4) (B 5)))) ∧
    (B 1 = 0x05 → decodeFrame fill addr frame = .instr .wrsc) ∧
    (B 1 = 0x06 → decodeFrame fill addr frame = .instr (.wrsr (be16 (B 2) (B 3)) (be16 (B 4) (B 5)))) ∧
    (B 1 = 0x0F → decodeFrame fill addr frame = .instr .wrmc) ∧
    (B 1 = 0x10 → ∃ vals : List Word,
      decodeFrame fill addr frame = .instr (.wrmr (be16 (B 2) (B 3)) (be16 (B 4) (B 5)) (B 6) vals) ∧
      vals.length = min (be16 (B 4) (B 5)).toNat 127 ∧
      ∀ k < vals.length, vals[k]? = some (be16 (B (7 + 2 * k)) (B (8 + 2 * k)))) ∧
    (B 1 ∉ [0x01, 0x02, 0x03, 0x04, 0x05, 0x06, 0x0F, 0x10] →
      decodeFrame fill addr frame = .instr (.other (B 1)))

/-- R106, R107, R108 and R167: the three tests in their order, each with its own rejection; a frame that passes all
three is an instruction. -/
def Obligations.ValidationTestsInOrder : Prop :=
  ∀ (fill : Nat → Byte) (addr : Byte) (frame : List Byte),
    (frame.length < 4 → decodeFrame fill addr frame = .reject .shortFrame) ∧
    (4 ≤ frame.length → frame[0]? ≠ some addr → decodeFrame fill addr frame = .reject .addrMismatch) ∧
    (4 ≤ frame.length → frame[0]? = some addr → crc16 frame ≠ 0 →
      decodeFrame fill addr frame = .reject .crcFail) ∧
    (4 ≤ frame.length → frame[0]? = some addr → crc16 frame = 0 → ∃ i, decodeFrame fill addr frame = .instr i)

/-- Every instruction the decoder gives is well-formed: no malformed term ever runs (R61, R143, R130). -/
def Obligations.DecodedInstructionIsWellFormed : Prop :=
  ∀ (fill : Nat → Byte) (addr : Byte) (frame : List Byte) (i : Instr),
    decodeFrame fill addr frame = .instr i → i.wellFormed = true

/-! The CRC engine. -/

/-- R72 with R70: every table entry is the result of eight reflected shift steps on its own index. The table and the
polynomial 0xA001 are no words of the source: the spec marks both as general knowledge (GK1), which is log 12
(PRESUMED), and R72 marks the agreement of the table with the shift form as derived. -/
def Obligations.TableEntriesAreEightShifts : Prop :=
  ∀ j : Byte, crcTab j = crcShift8 (j.setWidth 16)

/-- R73: the table-driven byte step is the stated expression, CRC16 is its fold from 0xFFFF, and the step equals the
bit-serial form. R73 marks that equality as derived from R72, and it holds for the table and the polynomial 0xA001 of
log 12 (PRESUMED, GK1). -/
def Obligations.ByteStepIsBitSerial : Prop :=
  (∀ (c : Word) (b : Byte),
    crcStep c b = (c >>> 8) ^^^ crcTab (BitVec.ofNat 8 (c &&& 0xFF).toNat ^^^ b) ∧
    crcStep c b = crcShift8 (c ^^^ b.setWidth 16)) ∧
  ∀ bytes : List Byte, crc16 bytes = bytes.foldl crcStep 0xFFFF

/-- R75: a frame of this server passes the CRC test exactly when the CRC over all its bytes is 0; a frame closed with
its CRC has residue 0; and the residue test is equivalent to comparing the two last bytes with the CRC of the bytes
before them, low byte first. R75 says that the test is the residue test and no comparison, and marks the equivalence as
derived from R71. The equivalence uses the table of log 12 (PRESUMED, GK1: polynomial 0xA001), and so do the values of
the two examples, 0 and 0x1484. -/
def Obligations.ResidueTestIsCrcComparison : Prop :=
  (∀ (fill : Nat → Byte) (addr : Byte) (frame : List Byte), 4 ≤ frame.length → frame[0]? = some addr →
    (decodeFrame fill addr frame = .reject .crcFail ↔ crc16 frame ≠ 0)) ∧
  (∀ p : List Byte, crc16 (withCrc p) = 0) ∧
  (∀ (p : List Byte) (a b : Byte), crc16 (p ++ [a, b]) = 0 ↔ a = lo8 (crc16 p) ∧ b = hi8 (crc16 p)) ∧
  crc16 [0x11, 0x03, 0x00, 0x6B, 0x00, 0x03, 0x76, 0x87] = 0 ∧
  crc16 [0x11, 0x03, 0x00, 0x6B, 0x00, 0x03, 0x87, 0x76] = 0x1484

/-- R76 (a) and (b): the empty sequence has CRC 0xFFFF, and a frame with residue 0 keeps it under any number of
0x00 bytes appended. -/
def Obligations.TrailingZerosKeepResidue : Prop :=
  crc16 [] = 0xFFFF ∧
  ∀ (frame : List Byte) (n : Nat), crc16 frame = 0 → crc16 (frame ++ List.replicate n 0) = 0

/-- R77: a frame that differs in one bit from a frame with residue 0 does not have residue 0. The table it rests on is
that of log 12 (PRESUMED, GK1). -/
def Obligations.SingleBitFlipIsDetected : Prop :=
  ∀ (before after : List Byte) (b : Byte) (k : Nat), k < 8 →
    crc16 (before ++ b :: after) = 0 → crc16 (before ++ (b ^^^ (1#8 <<< k)) :: after) ≠ 0

/-! The timer, the intake, the receiver. -/

/-- R85 and R86: a Tick counts in state Counting, and the timer expires exactly when the count reaches the
threshold; in Idle and Expired it changes nothing. -/
def Obligations.TickCountsOnlyInCounting : Prop :=
  ∀ (s : State) (rest : List Event), s.eventNext .tick rest →
    ∃ t, step s = .next t ∧
      (s.tmrSt = .counting → s.tmrCnt + 1 = s.thresh →
        t = { s with agenda := rest, draws := t.draws, tmrCnt := s.tmrCnt + 1, tmrSt := .expired }) ∧
      (s.tmrSt = .counting → s.tmrCnt + 1 ≠ s.thresh →
        t = { s with agenda := rest, draws := t.draws, tmrCnt := s.tmrCnt + 1 }) ∧
      (s.tmrSt ≠ .counting → t = { s with agenda := rest, draws := t.draws })

/-- The expiry occurs at the `thresh`-th Tick after the last rearm and not before, when no byte comes in between
(R85, R88); the frame buffer is untouched meanwhile. -/
def Obligations.ExpiryAtThresholdTick : Prop :=
  ∀ (s : State) (n : Nat), s.fault = false → s.tmrSt = .counting → s.tmrCnt = 0 → s.rxq = [] →
    n ≤ s.thresh → 1 ≤ n → s.agenda = List.replicate n .tick →
    ∃ t, Host.Core.run Sys2Proof.core n s = .next t ∧ t.tmrCnt = n ∧
      t.tmrSt = (if n = s.thresh then .expired else .counting) ∧ t.buf = s.buf ∧ t.hreg = s.hreg ∧ t.tx = s.tx

/-- R95, R96, R97 with R82 and R83: when a byte is pending, receive interrupts are enabled and no expiry is pending,
the very next event but a Reset is the intake: the byte leaves the receive register, the timer restarts in Counting,
and the byte is appended if capacity remains and otherwise dropped; nothing else changes. That the agenda waits, and
loses an intake at its head, is the model's reading of R93 (log 3). -/
def Obligations.IntakeReadsRearmsAppends : Prop :=
  ∀ (s : State) (b : Byte) (queue : List Byte),
    s.fault = false → s.rxq = b :: queue → s.rxie = true → s.tmrSt ≠ .expired →
    s.agenda.head? ≠ some .reset →
    ∃ t, step s = .next t ∧ t = { s with
      agenda := if s.agenda.head? = some .rxIntake then s.agenda.tail else s.agenda
      draws := t.draws
      rxq := queue
      tmrCnt := 0
      tmrSt := .counting
      buf := if s.buf.length < s.params.frameCap then s.buf ++ [b] else s.buf }

/-- An intake between the expiry and its Decode clears the count, leaves the state Expired and appends the byte as
usual. The source does not cover a rearm in Expired: that this order is admitted (order A of R168) and what it does
(R84) are the spec's own marked decision D15, no stated rule of the source. -/
def Obligations.IntakeWhileExpiredKeepsExpiry : Prop :=
  ∀ (s : State) (b : Byte) (queue : List Byte) (rest : List Event),
    s.fault = false → s.rxq = b :: queue → s.rxie = true → s.tmrSt = .expired → s.agenda = .rxIntake :: rest →
    ∃ t, step s = .next t ∧ t = { s with
      agenda := rest
      draws := t.draws
      rxq := queue
      tmrCnt := 0
      buf := if s.buf.length < s.params.frameCap then s.buf ++ [b] else s.buf }

/-- An arriving byte enters the receive queue if it is not full and is lost otherwise; nothing else changes (R94). The
queue, and that the newest byte is the one lost, are the spec's own marked decision D7 (log 24, DEDUCED). -/
def Obligations.ArrivalQueuesOrIsLost : Prop :=
  ∀ (s : State) (b : Byte) (rest : List Event), s.eventNext (.rxArrive b) rest →
    ∃ t, step s = .next t ∧ t = { s with
      agenda := rest
      draws := t.draws
      rxq := if s.rxq.length < s.params.rxDepth then s.rxq ++ [b] else s.rxq }

/-! The decoder. -/

/-- A step runs the decoded instruction: when a Decode is next and the buffer decodes to `i`, the step enters the
decoder, runs `exec i`, and ends the event; a fault of `exec` is taken by `raiseFault` (R103 to R105, R113). -/
def Obligations.StepRunsDecodedInstruction : Prop :=
  ∀ (s : State) (arr : List Byte) (stall : Option Nat) (rest : List Event) (i : Instr),
    s.decodeNext arr stall rest →
    decodeFrame (beginEvent rest s).drawAt s.addr s.buf = .instr i →
    step s =
      match exec i (enterDecode stall (beginEvent rest s)) with
      | .next t => .next (finishDecode arr t)
      | .fault _ => .next (raiseFault (enterDecode stall (beginEvent rest s)))
      | .refused r => .refused r

/-- R112: a Decode sends nothing in exactly four cases: fewer than four bytes, another station's address, a residue
other than 0, a function code that is none of the eight. There it changes nothing but what the epilogue changes; every
other Decode that does not fault sends something. Both hold whatever the serial peripheral does (`stall`). -/
def Obligations.SilentDecodesAndOnlyThese : Prop :=
  ∀ (s : State) (arr : List Byte) (stall : Option Nat) (rest : List Event), s.decodeNext arr stall rest →
    let silent := s.len < 4 ∨ s.buf[0]? ≠ some s.addr ∨ crc16 s.buf ≠ 0 ∨
      ∃ f, s.buf[1]? = some f ∧ f ∉ [0x01, 0x02, 0x03, 0x04, 0x05, 0x06, 0x0F, 0x10]
    (silent →
      ∃ t, step s = .next t ∧ t = { s with
        agenda := rest
        draws := t.draws
        rxq := (s.rxq ++ arr.take (s.params.rxDepth - s.rxq.length)).tail
        buf := []
        tmrSt := .idle
        tmrCnt := 0
        rxie := true
        stall := t.stall }) ∧
    (¬ silent → ∃ t, step s = .next t ∧ (t.fault = true ∨ t.tx ≠ s.tx))

/-- R115, R116 and R117: every Decode that does not fault, with a live serial peripheral, ends in state Idle with an
empty buffer, receive interrupts enabled, direction RX, one byte fewer in the receive queue than its depth, and the
address and the threshold as they were; the store is as the command left it, and as it was where no command ran. -/
def Obligations.DecodeEndsReady : Prop :=
  ∀ (s : State) (arr : List Byte) (rest : List Event),
    s.decodeNext arr none rest → s.rxq.length ≤ s.params.rxDepth →
    ∃ t, step s = .next t ∧
      (t.fault = true ∨
        (t.len = 0 ∧ t.tmrSt = .idle ∧ t.tmrCnt = 0 ∧ t.rxie = true ∧ t.dir = .rx ∧
          t.rxq.length ≤ s.params.rxDepth - 1 ∧ t.addr = s.addr ∧ t.thresh = s.thresh ∧
          (∀ r, fetch (beginEvent rest s) = .reject r → t.hreg = s.hreg) ∧
          (∀ i u, fetch (beginEvent rest s) = .instr i →
            exec i (enterDecode none (beginEvent rest s)) = .next u → t.hreg = u.hreg)))

/-- R118 (a) with R111 and R157: whatever frame a Decode finds, with a live serial peripheral the output trace gains
nothing or exactly one bracketed group, whose bytes have CRC residue 0, begin with this server's address, and number
at most 259 or the buffer's capacity, unless the event faults. -/
def Obligations.EveryResponseHasResidueZero : Prop :=
  ∀ (s : State) (arr : List Byte) (rest : List Event),
    s.decodeNext arr none rest → s.len ≤ s.params.frameCap →
    ∃ t, step s = .next t ∧
      (t.fault = true ∨ t.tx = s.tx ∨
        ∃ resp : List Byte, t.tx = s.tx ++ txGroup resp ∧ crc16 resp = 0 ∧ resp[0]? = some s.addr ∧
          4 ≤ resp.length ∧ resp.length ≤ max 259 s.params.frameCap)

/-- R114: with a receive register of one byte the net effect of the bytes that arrive during a Decode is nil: any two
sequences of arrivals lead to the same state, with an empty receive register unless the event faults. -/
def Obligations.ArrivalsDuringDecodeHaveNoEffect : Prop :=
  ∀ (s : State) (arr1 arr2 : List Byte) (rest : List Event),
    s.params.rxDepth = 1 → s.rxq.length ≤ 1 → s.decodeNext arr1 none rest →
    step s = step { s with agenda := .decode arr2 none :: rest } ∧
    ∃ t, step s = .next t ∧ (t.fault = true ∨ t.rxq = [])

/-! The read commands. -/

/-- R120 and R123: the clamp, case by case. -/
def Obligations.ClampCases : Prop :=
  ∀ nRegs start count : Nat,
    (nRegs ≤ start → clamp nRegs start count = min count 127) ∧
    (start < nRegs → start + min count 127 ≤ nRegs → clamp nRegs start count = min count 127) ∧
    (start < nRegs → nRegs < start + min count 127 →
      clamp nRegs start count = nRegs - start ∧ 1 ≤ clamp nRegs start count) ∧
    clamp nRegs start count ≤ 127 ∧
    (clamp nRegs start count = 0 ↔ count = 0)

/-- R119: RDHR with `start` in range, or with a count of zero (R124), completes: it answers the request's address, the
function code, the byte count and the registers' values in ascending order, high byte first, with a fresh CRC, and
changes nothing but the output side (of the serial peripheral's two signals nothing is said); with `start` out of range and a count above zero it faults. -/
def Obligations.ReadHoldingRegistersResult : Prop :=
  ∀ (start count : Word) (s : State) (a : Byte), s.live → s.buf.head? = some a →
    let n := clamp s.params.nRegs start.toNat count.toNat
    (start.toNat < s.params.nRegs ∨ count = 0 →
      ∃ t, exec (.rdhr start count) s = .next t ∧ t = { s with
        tx := s.tx ++ .dirTx :: ((withCrc ([a, 0x03, BitVec.ofNat 8 (2 * n)] ++
          (List.range n).flatMap fun k => [hi8 (s.regAt (start.toNat + k)), lo8 (s.regAt (start.toNat + k))])).map
            .byte ++ [.dirRx])
        dir := .rx
        dre := t.dre
        txc := t.txc }) ∧
    (s.params.nRegs ≤ start.toNat → count ≠ 0 → exec (.rdhr start count) s = .fault .storeIndexOutOfRange)

/-- R122: RDIR is identical to RDHR except that the function byte it echoes is 0x04. -/
def Obligations.ReadInputRegistersResult : Prop :=
  ∀ (start count : Word) (s : State) (a : Byte), s.live → s.buf.head? = some a →
    let n := clamp s.params.nRegs start.toNat count.toNat
    (start.toNat < s.params.nRegs ∨ count = 0 →
      ∃ t, exec (.rdir start count) s = .next t ∧ t = { s with
        tx := s.tx ++ .dirTx :: ((withCrc ([a, 0x04, BitVec.ofNat 8 (2 * n)] ++
          (List.range n).flatMap fun k => [hi8 (s.regAt (start.toNat + k)), lo8 (s.regAt (start.toNat + k))])).map
            .byte ++ [.dirRx])
        dir := .rx
        dre := t.dre
        txc := t.txc }) ∧
    (s.params.nRegs ≤ start.toNat → count ≠ 0 → exec (.rdir start count) s = .fault .storeIndexOutOfRange)

/-- R124: a read of zero registers is answered with the five bytes of an empty response, whatever `start` is. -/
def Obligations.ReadOfZeroRegistersIsAnswered : Prop :=
  ∀ (start : Word) (s : State) (a : Byte), s.live → s.buf.head? = some a →
    (∃ t, exec (.rdhr start 0) s = .next t ∧ t.hreg = s.hreg ∧
      t.tx = s.tx ++ .dirTx :: ((withCrc [a, 0x03, 0x00]).map .byte ++ [.dirRx])) ∧
    (∃ t, exec (.rdir start 0) s = .next t ∧ t.hreg = s.hreg ∧
      t.tx = s.tx ++ .dirTx :: ((withCrc [a, 0x04, 0x00]).map .byte ++ [.dirRx]))

/-! The write commands. -/

/-- R127: WRSR writes the value to the register and to nothing else, and its response is the whole frame in the
buffer, unmodified; a register index outside the store faults. -/
def Obligations.WriteSingleResult : Prop :=
  ∀ (reg val : Word) (s : State),
    Memory.wf s.params.initBase s.params.nRegs s.hreg → s.live → s.buf ≠ [] →
    (reg.toNat < s.params.nRegs →
      ∃ t, exec (.wrsr reg val) s = .next t ∧
        (∀ k, t.regAt k = if k = reg.toNat then val else s.regAt k) ∧
        t = { s with
          hreg := t.hreg
          tx := s.tx ++ .dirTx :: (s.buf.map .byte ++ [.dirRx])
          dir := .rx
          dre := t.dre
          txc := t.txc }) ∧
    (s.params.nRegs ≤ reg.toNat → exec (.wrsr reg val) s = .fault .storeIndexOutOfRange)

/-- R129 to R132: WRMR writes its clamped number of values to the registers from `start` on and to nothing else, and
answers address, function, start and the number of registers written, with a fresh CRC (the clamped count is the
spec's decision D13, log 13); with `start` out of range and a count above zero it faults. The bytecount has no part in
it (R133). -/
def Obligations.WriteMultipleResult : Prop :=
  ∀ (start count : Word) (bytecount : Byte) (vals : List Word) (s : State) (a : Byte),
    (Instr.wrmr start count bytecount vals).wellFormed = true →
    Memory.wf s.params.initBase s.params.nRegs s.hreg → s.live → s.buf.head? = some a →
    let n := clamp s.params.nRegs start.toNat count.toNat
    (start.toNat < s.params.nRegs ∨ count = 0 →
      ∃ t, exec (.wrmr start count bytecount vals) s = .next t ∧
        (∀ k < n, some (t.regAt (start.toNat + k)) = vals[k]?) ∧
        (∀ k, k < start.toNat ∨ start.toNat + n ≤ k → t.regAt k = s.regAt k) ∧
        t = { s with
          hreg := t.hreg
          tx := s.tx ++ .dirTx :: ((withCrc [a, 0x10, hi8 start, lo8 start, 0x00, BitVec.ofNat 8 n]).map .byte ++
            [.dirRx])
          dir := .rx
          dre := t.dre
          txc := t.txc }) ∧
    (s.params.nRegs ≤ start.toNat → count ≠ 0 →
      exec (.wrmr start count bytecount vals) s = .fault .storeIndexOutOfRange)

/-- R136: a value written to a register, by WRSR or by WRMR, is what RDHR and RDIR of that register return in every
later state in which the register still holds what the write left in it (no other write to it in between) and another
frame may stand in the buffer; the first such state is the one the write itself leaves. -/
def Obligations.WriteThenReadReturnsValue : Prop :=
  let readBack := fun (reg val : Word) (t : State) =>
    ∀ (u : State) (b : Byte), u.params = t.params → u.regAt reg.toNat = t.regAt reg.toNat → u.live →
      u.buf.head? = some b →
      (∃ v, exec (.rdhr reg 1) u = .next v ∧
        v.tx = u.tx ++ .dirTx :: ((withCrc [b, 0x03, 0x02, hi8 val, lo8 val]).map .byte ++ [.dirRx])) ∧
      (∃ v, exec (.rdir reg 1) u = .next v ∧
        v.tx = u.tx ++ .dirTx :: ((withCrc [b, 0x04, 0x02, hi8 val, lo8 val]).map .byte ++ [.dirRx]))
  (∀ (reg val : Word) (s : State),
    Memory.wf s.params.initBase s.params.nRegs s.hreg → s.live → s.buf ≠ [] → reg.toNat < s.params.nRegs →
    ∃ t, exec (.wrsr reg val) s = .next t ∧ t.params = s.params ∧ t.live ∧ t.buf = s.buf ∧ readBack reg val t) ∧
  (∀ (start count : Word) (bytecount : Byte) (vals : List Word) (s : State),
    (Instr.wrmr start count bytecount vals).wellFormed = true →
    Memory.wf s.params.initBase s.params.nRegs s.hreg → s.live → s.buf ≠ [] → start.toNat < s.params.nRegs →
    ∃ t, exec (.wrmr start count bytecount vals) s = .next t ∧ t.params = s.params ∧ t.live ∧ t.buf = s.buf ∧
      ∀ reg val : Word, start.toNat ≤ reg.toNat →
        reg.toNat < start.toNat + clamp s.params.nRegs start.toNat count.toNat →
        vals[reg.toNat - start.toNat]? = some val → readBack reg val t)

/-- R135: repeating a WRMR, or a WRSR, gives the same register contents and the identical acknowledgement. -/
def Obligations.RepeatedWriteIsIdempotent : Prop :=
  (∀ (start count : Word) (bytecount : Byte) (vals : List Word) (s : State),
    (Instr.wrmr start count bytecount vals).wellFormed = true →
    Memory.wf s.params.initBase s.params.nRegs s.hreg → s.live → s.buf ≠ [] →
    (start.toNat < s.params.nRegs ∨ count = 0) →
    ∃ t u ack, exec (.wrmr start count bytecount vals) s = .next t ∧
      exec (.wrmr start count bytecount vals) t = .next u ∧
      u.hreg = t.hreg ∧
      t.tx = s.tx ++ txGroup ack ∧ u.tx = t.tx ++ txGroup ack) ∧
  (∀ (reg val : Word) (s : State),
    Memory.wf s.params.initBase s.params.nRegs s.hreg → s.live → s.buf ≠ [] → reg.toNat < s.params.nRegs →
    ∃ t u ack, exec (.wrsr reg val) s = .next t ∧ exec (.wrsr reg val) t = .next u ∧
      u.hreg = t.hreg ∧
      t.tx = s.tx ++ txGroup ack ∧ u.tx = t.tx ++ txGroup ack)

/-! The refused commands. -/

/-- R139 to R142 and R144: RDCO, RDDI, WRSC and WRMC are always answered with the exception response: the request's
address, the function code with bit 7 set, the code 0x01, a CRC; nothing else changes but the serial peripheral's two
signals, of which nothing is said. -/
def Obligations.IllegalFunctionResult : Prop :=
  ∀ (s : State) (a : Byte), s.live → s.buf.head? = some a →
    let answered := fun (func : Byte) (t : State) => t = { s with
      tx := s.tx ++ .dirTx :: ((withCrc [a, func, 0x01]).map .byte ++ [.dirRx])
      dir := .rx
      dre := t.dre
      txc := t.txc }
    (∃ t, exec .rdco s = .next t ∧ answered 0x81 t) ∧
    (∃ t, exec .rddi s = .next t ∧ answered 0x82 t) ∧
    (∃ t, exec .wrsc s = .next t ∧ answered 0x85 t) ∧
    (∃ t, exec .wrmc s = .next t ∧ answered 0x8F t)

/-- R143: every other function code does nothing: no response, no state read or written. -/
def Obligations.OtherFunctionCodeDoesNothing : Prop :=
  ∀ (func : Byte) (s : State), exec (.other func) s = .next s

/-- R65: no encoding traps: every instruction in every state either completes or makes the one Fault, an access outside
the store, and that only where R119, R122, R127 and R129 say so. -/
def Obligations.OnlyStoreAccessesFault : Prop :=
  ∀ (i : Instr) (s : State), i.wellFormed = true →
    ((∃ t, exec i s = .next t) ∨ exec i s = .fault .storeIndexOutOfRange) ∧
    (exec i s = .fault .storeIndexOutOfRange ↔
      (∃ start count, (i = .rdhr start count ∨ i = .rdir start count) ∧
        s.params.nRegs ≤ start.toNat ∧ count ≠ 0) ∨
      (∃ reg val, i = .wrsr reg val ∧ s.params.nRegs ≤ reg.toNat) ∨
      (∃ start count bytecount vals, i = .wrmr start count bytecount vals ∧
        s.params.nRegs ≤ start.toNat ∧ count ≠ 0))

/-! The transmitter. -/

/-- R147: with a live serial peripheral a transmission appends the direction switch, every byte in order and the
switch back, and leaves the direction at RX; nothing else changes but the serial peripheral's two signals. -/
def Obligations.TransmitSendsEveryByte : Prop :=
  ∀ (resp : List Byte) (s : State), s.live → resp ≠ [] →
    transmit resp s = { s with
      tx := s.tx ++ .dirTx :: (resp.map .byte ++ [.dirRx])
      dir := .rx
      dre := (transmit resp s).dre
      txc := (transmit resp s).txc }

/-- R152 and R194: when the serial peripheral answers fewer waits than the transmission makes, it stays where it
waits, before a byte or, with every byte written, before the switch back (the two stalls of R152): the direction is TX,
the trace holds the bytes so far and no switch back, and nothing else changes but the peripheral's signals. When it
answers as many, the transmission completes. How many waits it answers is the model's input (log 10); how many there
are, one fewer if the data register is empty at the start, rests on each write clearing `dre` and `txc`, which is
presumed (log 11, GK4). -/
def Obligations.TransmitWithoutAnswersIsStuck : Prop :=
  ∀ (resp : List Byte) (s : State) (k : Nat), s.stall = some k → resp ≠ [] →
    let waits := if s.dre then resp.length else resp.length + 1
    let t := transmit resp s
    (k < waits → t = { s with
      dir := .tx
      tx := s.tx ++ .dirTx :: (resp.take (if s.dre then k + 1 else k)).map .byte
      dre := t.dre
      txc := t.txc
      stall := t.stall }) ∧
    (waits ≤ k → t = { s with
      dir := .rx
      tx := s.tx ++ .dirTx :: (resp.map .byte ++ [.dirRx])
      dre := t.dre
      txc := t.txc
      stall := t.stall })

/-- R152, R151: from a Decode stuck in its transmitter nothing but a Reset recovers: every step that is not a Reset
leaves it stuck, sends nothing and leaves the store and the buffer alone. -/
def Obligations.OnlyResetRecoversStuckTransmitter : Prop :=
  ∀ s t : State, s.fault = false → s.Stuck → step s = .next t → s.agenda.head? ≠ some .reset →
    t.Stuck ∧ t.fault = false ∧ t.tx = s.tx ∧ t.hreg = s.hreg ∧ t.buf = s.buf

/-! Fault and Reset. -/

/-- A Decode whose command makes an access outside the store sets `fault`; in a state with `fault` set a scheduled
Reset is the only event: any other step stops with the Fault (R163, R113). That such an access is a Fault at all is the
spec's own marked decision D11; that the Fault is a next state which keeps the agenda, and that the faulted state stops
with a fault outcome, is the model's (log 9). -/
def Obligations.FaultIsTakenAndOnlyResetLeavesIt : Prop :=
  (∀ (s : State) (arr : List Byte) (stall : Option Nat) (rest : List Event) (i : Instr),
    s.decodeNext arr stall rest → fetch (beginEvent rest s) = .instr i →
    exec i (enterDecode stall (beginEvent rest s)) = .fault .storeIndexOutOfRange →
    ∃ t, step s = .next t ∧ t.fault = true ∧ t.agenda = rest) ∧
  (∀ s : State, s.fault = true → s.agenda.head? ≠ some .reset → step s = .fault .storeIndexOutOfRange) ∧
  (∀ s : State, s.fault = true → s.agenda.head? = some .reset → ∃ t, step s = .next t ∧ t.fault = false)

/-- A scheduled Reset is the next event in every state, faulted or stuck or with a byte pending, and nothing survives
it (R181, R182): every element holds its value of R32's table. The registers, the address, the threshold and the empty
buffer are R182; the timer, the interrupt enable, the direction, the receive register and `fault` are the spec's own
marked decision D10. That a scheduled Reset comes before an intake that is due is the model's (log 26). -/
def Obligations.ResetRestoresEveryElement : Prop :=
  ∀ (s : State) (rest : List Event), s.agenda = .reset :: rest →
    ∃ t, step s = .next t ∧
      (∀ k, t.regAt k = s.params.initBase + BitVec.ofNat 16 k) ∧
      t.len = 0 ∧ t.tmrSt = .idle ∧ t.tmrCnt = 0 ∧ t.addr = s.params.serverAddr ∧
      t.thresh = s.params.threshTicks ∧ t.rxie = true ∧ t.dir = .rx ∧ t.rxq = [] ∧ t.fault = false

/-- The table of R32, for every choice of the OPEN parameters: what the state after reset holds. -/
def Obligations.ResetStateValues : Prop :=
  ∀ p : Params,
    let s := State.resetWith p
    (∀ k, s.regAt k = p.initBase + BitVec.ofNat 16 k) ∧ s.len = 0 ∧ s.tmrSt = .idle ∧ s.tmrCnt = 0 ∧
    s.addr = p.serverAddr ∧ s.thresh = p.threshTicks ∧ s.rxie = true ∧ s.dir = .rx ∧ s.rxq = [] ∧ s.fault = false

/-! The application. -/

/-- R172: AppReadReg returns the register's value and AppWriteReg writes the register; both change nothing else, and
fault outside the store. The returned value is recorded in the model's own field `appOut` (log 15). -/
def Obligations.AppAccessesOneRegister : Prop :=
  ∀ (s : State) (i : Nat) (v : Word) (rest : List Event),
    s.dir = .rx → Memory.wf s.params.initBase s.params.nRegs s.hreg →
    (s.eventNext (.appReadReg i) rest → i < s.params.nRegs →
      ∃ t, step s = .next t ∧
        t = { s with agenda := rest, draws := t.draws, appOut := s.appOut ++ [s.regAt i] }) ∧
    (s.eventNext (.appWriteReg i v) rest → i < s.params.nRegs →
      ∃ t, step s = .next t ∧ (∀ k, t.regAt k = if k = i then v else s.regAt k) ∧
        t = { s with agenda := rest, draws := t.draws, hreg := t.hreg }) ∧
    (s.eventNext (.appReadReg i) rest ∨ s.eventNext (.appWriteReg i v) rest → s.params.nRegs ≤ i →
      ∃ t, step s = .next t ∧ t.fault = true)

/-- R173: AppSetAddr accepts every value in every timer state; AppSetBaud loads a threshold of at least 1 in state
Idle and is refused in Counting and Expired (the refusal is the model's treatment of U8, log 19). -/
def Obligations.AppReconfigures : Prop :=
  ∀ (s : State) (a : Byte) (n : Nat) (rest : List Event), s.dir = .rx →
    (s.eventNext (.appSetAddr a) rest →
      ∃ t, step s = .next t ∧ t = { s with agenda := rest, draws := t.draws, addr := a }) ∧
    (s.eventNext (.appSetBaud n) rest → s.tmrSt = .idle → 1 ≤ n →
      ∃ t, step s = .next t ∧ t = { s with agenda := rest, draws := t.draws, thresh := n }) ∧
    (s.eventNext (.appSetBaud n) rest → s.tmrSt ≠ .idle → step s = .refused .baudNotIdle)

/-! Invariants and rules about the whole machine. -/

/-- R32: every step from a state that meets the invariant leads to a state that meets it: the store canonical and
within its N_REGS cells, buffer, count, threshold and receive queue within their ranges, an idle timer with an empty
buffer, a counting one with a byte taken in and below its threshold, direction RX and receive interrupts enabled
unless a Decode is stuck in its transmitter; after a Fault nothing is claimed but the parameters. -/
def Obligations.StepKeepsInvariant : Prop :=
  ∀ s t : State, s.Inv → step s = .next t → t.Inv

/-- The state after reset meets the invariant, for every legal choice of the parameters. -/
def Obligations.ResetMeetsInvariant : Prop :=
  (∀ p : Params, p.Legal → (State.resetWith p).Inv) ∧ State.reset.Inv

/-- R16 and R138: without a Fault, only a Reset, an AppWriteReg and a Decode of a write command change any holding
register. -/
def Obligations.OnlyWritersChangeTheStore : Prop :=
  ∀ s t : State, step s = .next t → t.fault = false → (∃ k, t.regAt k ≠ s.regAt k) →
    (nextEvent s).1 = .reset ∨
    (∃ i v, (nextEvent s).1 = .appWriteReg i v) ∨
    (∃ arr stall, (nextEvent s).1 = .decode arr stall ∧
      ((∃ reg val, fetch (beginEvent (nextEvent s).2 s) = .instr (.wrsr reg val)) ∨
        (∃ start count bytecount vals,
          fetch (beginEvent (nextEvent s).2 s) = .instr (.wrmr start count bytecount vals))))

/-- R22 and R23: without a Fault, only AppSetAddr and Reset change the server address, and only AppSetBaud and Reset
change the threshold. -/
def Obligations.OnlyAppAndResetReconfigure : Prop :=
  ∀ s t : State, step s = .next t → t.fault = false →
    (t.addr ≠ s.addr → (nextEvent s).1 = .reset ∨ ∃ a, (nextEvent s).1 = .appSetAddr a) ∧
    (t.thresh ≠ s.thresh → (nextEvent s).1 = .reset ∨ ∃ n, (nextEvent s).1 = .appSetBaud n)

/-- R17 and R101: without a Fault, the frame buffer changes only by an intake, which appends one byte, and by the end
of a Decode or a Reset, which empty it. -/
def Obligations.OnlyIntakeDecodeResetChangeTheBuffer : Prop :=
  ∀ s t : State, step s = .next t → t.fault = false → t.buf ≠ s.buf →
    ((nextEvent s).1 = .rxIntake ∧ ∃ b, s.rxq.head? = some b ∧ t.buf = s.buf ++ [b]) ∨
    ((∃ arr stall, (nextEvent s).1 = .decode arr stall) ∧ t.buf = []) ∨
    ((nextEvent s).1 = .reset ∧ t.buf = [])

/-- R147 and R30: without a Fault, what was sent stays in the trace, and only a Decode adds to it. That the trace stays
over a Reset, and in the step that leaves a faulted state, is the model's: the trace is a field of State that a Reset
event keeps (log 15, DESIGN CHOICE). -/
def Obligations.OnlyDecodeTransmits : Prop :=
  ∀ s t : State, step s = .next t → t.fault = false →
    s.tx <+: t.tx ∧ (t.tx ≠ s.tx → ∃ arr stall, (nextEvent s).1 = .decode arr stall)

/-- The parameters are fixed: no step, not even one into a Fault, changes them (R8; holding them in the state is the
model's choice, log 4). -/
def Obligations.ParametersNeverChange : Prop :=
  ∀ s t : State, step s = .next t → t.params = s.params

/-- R88 and R200: when the environment sends nothing more, the block is quiescent, or faulted, after at most
`thresh + 1` steps: the pending silence ends in one expiry and one Decode. That an empty agenda means Ticks and a
live serial peripheral is the model's choice (log 2). -/
def Obligations.SilenceLeadsToQuiescence : Prop :=
  ∀ s : State, s.Inv → s.fault = false → s.dir = .rx → s.rxq = [] → s.agenda = [] →
    ∃ n t, n ≤ s.thresh + 1 ∧ Host.Core.run Sys2Proof.core n s = .next t ∧ (t.fault = true ∨ t.quiescent)
end

