-- ==== Sys2Proof/Laws/Bytes.lean ====
section
/-! SUPPORT. Byte halves of words and the CRC step. -/

namespace Sys2Proof.Machine

theorem be16_toNat (hi lo : Byte) : (be16 hi lo).toNat = hi.toNat * 256 + lo.toNat := by
  have h := lo.isLt
  change (hi ++ lo : BitVec (8 + 8)).toNat = _
  rw [BitVec.toNat_append, ← Nat.shiftLeft_add_eq_or_of_lt (by omega), Nat.shiftLeft_eq]

theorem hi8_toNat (w : Word) : (hi8 w).toNat = w.toNat / 256 := by
  have := w.isLt
  simp [hi8, Nat.shiftRight_eq_div_pow]
  omega

theorem lo8_toNat (w : Word) : (lo8 w).toNat = w.toNat % 256 := by simp [lo8]

@[simp] theorem be16_hi8_lo8 (w : Word) : be16 (hi8 w) (lo8 w) = w := by
  apply BitVec.eq_of_toNat_eq
  rw [be16_toNat, hi8_toNat, lo8_toNat]
  omega

@[simp] theorem hi8_be16 (hi lo : Byte) : hi8 (be16 hi lo) = hi := by
  apply BitVec.eq_of_toNat_eq
  have := lo.isLt
  rw [hi8_toNat, be16_toNat]
  omega

@[simp] theorem lo8_be16 (hi lo : Byte) : lo8 (be16 hi lo) = lo := by
  apply BitVec.eq_of_toNat_eq
  have := lo.isLt
  rw [lo8_toNat, be16_toNat]
  omega

/-- A word is determined by its two halves. -/
theorem word_ext {v w : Word} (hh : hi8 v = hi8 w) (hl : lo8 v = lo8 w) : v = w := by
  rw [← be16_hi8_lo8 v, ← be16_hi8_lo8 w, hh, hl]

theorem hi8_xor (v w : Word) : hi8 (v ^^^ w) = hi8 v ^^^ hi8 w := by
  simp [hi8, BitVec.extractLsb'_xor]

theorem lo8_xor (v w : Word) : lo8 (v ^^^ w) = lo8 v ^^^ lo8 w := by
  simp [lo8, BitVec.extractLsb'_xor]

@[simp] theorem hi8_shiftRight_8 (w : Word) : hi8 (w >>> 8) = 0 := by
  apply BitVec.eq_of_toNat_eq
  have := w.isLt
  simp [hi8, Nat.shiftRight_eq_div_pow]
  omega

@[simp] theorem lo8_shiftRight_8 (w : Word) : lo8 (w >>> 8) = hi8 w := by
  apply BitVec.eq_of_toNat_eq
  simp [hi8, lo8, Nat.shiftRight_eq_div_pow]

@[simp] theorem lo8_zero : lo8 0#16 = 0#8 := by decide

@[simp] theorem hi8_zero : hi8 0#16 = 0#8 := by decide

@[simp] theorem crcTab_zero : crcTab 0#8 = 0#16 := by decide

/-- The high byte of a CRC step is the table entry's: the shifted value has none. -/
theorem hi8_crcStep (c : Word) (b : Byte) : hi8 (crcStep c b) = hi8 (crcTab (lo8 c ^^^ b)) := by
  simp [crcStep, hi8_xor]

/-- The low byte of a CRC step is the old high byte XOR the table entry's low byte. -/
theorem lo8_crcStep (c : Word) (b : Byte) : lo8 (crcStep c b) = hi8 c ^^^ lo8 (crcTab (lo8 c ^^^ b)) := by
  simp [crcStep, lo8_xor]

/-- The reflected shift step is linear over XOR. -/
theorem crcShift_xor (v w : Word) : crcShift (v ^^^ w) = crcShift v ^^^ crcShift w := by
  unfold crcShift
  simp only [BitVec.getLsbD_xor, BitVec.ushiftRight_xor_distrib]
  cases v.getLsbD 0 <;> cases w.getLsbD 0 <;> simp
  · ac_rfl
  · ac_rfl
  · rw [show v >>> 1 ^^^ Config.crcPolyR ^^^ (w >>> 1 ^^^ Config.crcPolyR) =
      v >>> 1 ^^^ w >>> 1 ^^^ (Config.crcPolyR ^^^ Config.crcPolyR) by ac_rfl]
    simp

/-- Eight reflected shift steps are linear over XOR. -/
theorem crcShift8_xor (v w : Word) : crcShift8 (v ^^^ w) = crcShift8 v ^^^ crcShift8 w := by
  simp [crcShift8, Nat.iterate, crcShift_xor]

@[simp] theorem crc16_append (p q : List Byte) : crc16 (p ++ q) = q.foldl crcStep (crc16 p) := by
  simp [crc16]

end Sys2Proof.Machine
end

