-- ==== Sys2Proof/Laws/Decode.lean ====
section
/-! SUPPORT. What the decoder can answer, and the bytes of an encoded frame. -/

namespace Sys2Proof

open Machine

/-- Everything the decoder can answer, with the test that decides (R167). -/
theorem decodeFrame_cases (fill : Nat → Byte) (addr : Byte) (frame : List Byte) :
    (frame.length < 4 ∧ decodeFrame fill addr frame = .reject .shortFrame) ∨
    (4 ≤ frame.length ∧ frame[0]? ≠ some addr ∧ decodeFrame fill addr frame = .reject .addrMismatch) ∨
    (4 ≤ frame.length ∧ frame[0]? = some addr ∧ crc16 frame ≠ 0 ∧
      decodeFrame fill addr frame = .reject .crcFail) ∨
    (4 ≤ frame.length ∧ frame[0]? = some addr ∧ crc16 frame = 0 ∧
      decodeFrame fill addr frame = .instr (dispatchFrame (frameByte fill frame))) := by
  unfold decodeFrame Config.minFrame
  by_cases h1 : frame.length < 4
  · exact .inl ⟨h1, by rw [if_pos h1]⟩
  · by_cases h2 : frame[0]? = some addr
    · by_cases h3 : crc16 frame = 0
      · exact .inr (.inr (.inr ⟨by omega, h2, h3, by rw [if_neg h1, if_neg (by simp [h2]), if_neg (by simp [h3])]⟩))
      · exact .inr (.inr (.inl ⟨by omega, h2, h3, by rw [if_neg h1, if_neg (by simp [h2]), if_pos h3]⟩))
    · exact .inr (.inl ⟨by omega, h2, by rw [if_neg h1, if_pos h2]⟩)

/-- The dispatch reads the function code, and the instruction it gives carries it (R109). -/
theorem opcode_dispatchFrame (B : Nat → Byte) : (dispatchFrame B).opcode = B 1 := by
  simp only [dispatchFrame]
  split_ifs <;> simp_all [Instr.opcode]

/-- A byte below the frame's length is the frame's own. -/
theorem frameByte_of_lt (fill : Nat → Byte) {frame : List Byte} {k : Nat} (h : k < frame.length) :
    frameByte fill frame k = frame[k] := by simp [frameByte, h]

/-- A byte at or above the frame's length is the draw. -/
theorem frameByte_of_ge (fill : Nat → Byte) {frame : List Byte} {k : Nat} (h : frame.length ≤ k) :
    frameByte fill frame k = fill k := by simp [frameByte, List.getElem?_eq_none h]

theorem withCrc_length (p : List Byte) : (withCrc p).length = p.length + 2 := by simp [withCrc, crcBytes]

/-- Big-endian values read back: the pair of bytes at a value's place is the value. -/
theorem flatMap_beBytes_getElem? (vals : List Word) (i : Nat) :
    (vals.flatMap beBytes)[2 * i]? = (vals[i]?).map hi8 ∧ (vals.flatMap beBytes)[2 * i + 1]? = (vals[i]?).map lo8 := by
  induction vals generalizing i with
  | nil => simp
  | cons v vs ih =>
    cases i with
    | zero => simp [beBytes]
    | succ i =>
      have := ih i
      simpa [beBytes, Nat.mul_add] using this

theorem flatMap_beBytes_length (vals : List Word) : (vals.flatMap beBytes).length = 2 * vals.length := by
  induction vals with
  | nil => rfl
  | cons v vs ih => simp [beBytes, ih]; omega

end Sys2Proof
end

