-- ==== Sys2Proof/Laws/State.lean ====
section
/-! SUPPORT. The small lemmas of the state's named updates: one per field and update, true by definition. -/

namespace Sys2Proof.Machine

@[simp] theorem enterDecode_params (stall : Option Nat) (s : State) : (enterDecode stall s).params = s.params := rfl
@[simp] theorem enterDecode_hreg (stall : Option Nat) (s : State) : (enterDecode stall s).hreg = s.hreg := rfl
@[simp] theorem enterDecode_buf (stall : Option Nat) (s : State) : (enterDecode stall s).buf = s.buf := rfl
@[simp] theorem enterDecode_tmrSt (stall : Option Nat) (s : State) : (enterDecode stall s).tmrSt = s.tmrSt := rfl
@[simp] theorem enterDecode_tmrCnt (stall : Option Nat) (s : State) : (enterDecode stall s).tmrCnt = s.tmrCnt := rfl
@[simp] theorem enterDecode_addr (stall : Option Nat) (s : State) : (enterDecode stall s).addr = s.addr := rfl
@[simp] theorem enterDecode_thresh (stall : Option Nat) (s : State) : (enterDecode stall s).thresh = s.thresh := rfl
@[simp] theorem enterDecode_rxie (stall : Option Nat) (s : State) : (enterDecode stall s).rxie = false := rfl
@[simp] theorem enterDecode_dir (stall : Option Nat) (s : State) : (enterDecode stall s).dir = s.dir := rfl
@[simp] theorem enterDecode_rxq (stall : Option Nat) (s : State) : (enterDecode stall s).rxq = s.rxq := rfl
@[simp] theorem enterDecode_dre (stall : Option Nat) (s : State) : (enterDecode stall s).dre = s.dre := rfl
@[simp] theorem enterDecode_txc (stall : Option Nat) (s : State) : (enterDecode stall s).txc = s.txc := rfl
@[simp] theorem enterDecode_fault (stall : Option Nat) (s : State) : (enterDecode stall s).fault = s.fault := rfl
@[simp] theorem enterDecode_tx (stall : Option Nat) (s : State) : (enterDecode stall s).tx = s.tx := rfl
@[simp] theorem enterDecode_appOut (stall : Option Nat) (s : State) : (enterDecode stall s).appOut = s.appOut := rfl
@[simp] theorem enterDecode_stall (stall : Option Nat) (s : State) : (enterDecode stall s).stall = stall := rfl
@[simp] theorem enterDecode_agenda (stall : Option Nat) (s : State) : (enterDecode stall s).agenda = s.agenda := rfl
@[simp] theorem enterDecode_draws (stall : Option Nat) (s : State) : (enterDecode stall s).draws = s.draws + drawSpan := rfl

@[simp] theorem leaveDecode_params (s : State) : (leaveDecode s).params = s.params := rfl
@[simp] theorem leaveDecode_hreg (s : State) : (leaveDecode s).hreg = s.hreg := rfl
@[simp] theorem leaveDecode_buf (s : State) : (leaveDecode s).buf = [] := rfl
@[simp] theorem leaveDecode_tmrSt (s : State) : (leaveDecode s).tmrSt = .idle := rfl
@[simp] theorem leaveDecode_tmrCnt (s : State) : (leaveDecode s).tmrCnt = 0 := rfl
@[simp] theorem leaveDecode_addr (s : State) : (leaveDecode s).addr = s.addr := rfl
@[simp] theorem leaveDecode_thresh (s : State) : (leaveDecode s).thresh = s.thresh := rfl
@[simp] theorem leaveDecode_rxie (s : State) : (leaveDecode s).rxie = true := rfl
@[simp] theorem leaveDecode_dir (s : State) : (leaveDecode s).dir = s.dir := rfl
@[simp] theorem leaveDecode_rxq (s : State) : (leaveDecode s).rxq = s.rxq.tail := rfl
@[simp] theorem leaveDecode_dre (s : State) : (leaveDecode s).dre = s.dre := rfl
@[simp] theorem leaveDecode_txc (s : State) : (leaveDecode s).txc = s.txc := rfl
@[simp] theorem leaveDecode_fault (s : State) : (leaveDecode s).fault = s.fault := rfl
@[simp] theorem leaveDecode_tx (s : State) : (leaveDecode s).tx = s.tx := rfl
@[simp] theorem leaveDecode_appOut (s : State) : (leaveDecode s).appOut = s.appOut := rfl
@[simp] theorem leaveDecode_stall (s : State) : (leaveDecode s).stall = none := rfl
@[simp] theorem leaveDecode_agenda (s : State) : (leaveDecode s).agenda = s.agenda := rfl
@[simp] theorem leaveDecode_draws (s : State) : (leaveDecode s).draws = s.draws := rfl

@[simp] theorem beginEvent_params (rest : List Event) (s : State) : (beginEvent rest s).params = s.params := rfl
@[simp] theorem beginEvent_hreg (rest : List Event) (s : State) : (beginEvent rest s).hreg = s.hreg := rfl
@[simp] theorem beginEvent_buf (rest : List Event) (s : State) : (beginEvent rest s).buf = s.buf := rfl
@[simp] theorem beginEvent_tmrSt (rest : List Event) (s : State) : (beginEvent rest s).tmrSt = s.tmrSt := rfl
@[simp] theorem beginEvent_tmrCnt (rest : List Event) (s : State) : (beginEvent rest s).tmrCnt = s.tmrCnt := rfl
@[simp] theorem beginEvent_addr (rest : List Event) (s : State) : (beginEvent rest s).addr = s.addr := rfl
@[simp] theorem beginEvent_thresh (rest : List Event) (s : State) : (beginEvent rest s).thresh = s.thresh := rfl
@[simp] theorem beginEvent_rxie (rest : List Event) (s : State) : (beginEvent rest s).rxie = s.rxie := rfl
@[simp] theorem beginEvent_dir (rest : List Event) (s : State) : (beginEvent rest s).dir = s.dir := rfl
@[simp] theorem beginEvent_rxq (rest : List Event) (s : State) : (beginEvent rest s).rxq = s.rxq := rfl
@[simp] theorem beginEvent_dre (rest : List Event) (s : State) : (beginEvent rest s).dre = s.dre := rfl
@[simp] theorem beginEvent_txc (rest : List Event) (s : State) : (beginEvent rest s).txc = s.txc := rfl
@[simp] theorem beginEvent_fault (rest : List Event) (s : State) : (beginEvent rest s).fault = s.fault := rfl
@[simp] theorem beginEvent_tx (rest : List Event) (s : State) : (beginEvent rest s).tx = s.tx := rfl
@[simp] theorem beginEvent_appOut (rest : List Event) (s : State) : (beginEvent rest s).appOut = s.appOut := rfl
@[simp] theorem beginEvent_stall (rest : List Event) (s : State) : (beginEvent rest s).stall = s.stall := rfl
@[simp] theorem beginEvent_agenda (rest : List Event) (s : State) : (beginEvent rest s).agenda = rest := rfl
@[simp] theorem beginEvent_draws (rest : List Event) (s : State) : (beginEvent rest s).draws = s.draws + 1 := rfl

@[simp] theorem writeData_params (b : Byte) (s : State) : (writeData b s).params = s.params := rfl
@[simp] theorem writeData_hreg (b : Byte) (s : State) : (writeData b s).hreg = s.hreg := rfl
@[simp] theorem writeData_buf (b : Byte) (s : State) : (writeData b s).buf = s.buf := rfl
@[simp] theorem writeData_tmrSt (b : Byte) (s : State) : (writeData b s).tmrSt = s.tmrSt := rfl
@[simp] theorem writeData_tmrCnt (b : Byte) (s : State) : (writeData b s).tmrCnt = s.tmrCnt := rfl
@[simp] theorem writeData_addr (b : Byte) (s : State) : (writeData b s).addr = s.addr := rfl
@[simp] theorem writeData_thresh (b : Byte) (s : State) : (writeData b s).thresh = s.thresh := rfl
@[simp] theorem writeData_rxie (b : Byte) (s : State) : (writeData b s).rxie = s.rxie := rfl
@[simp] theorem writeData_dir (b : Byte) (s : State) : (writeData b s).dir = s.dir := rfl
@[simp] theorem writeData_rxq (b : Byte) (s : State) : (writeData b s).rxq = s.rxq := rfl
@[simp] theorem writeData_dre (b : Byte) (s : State) : (writeData b s).dre = false := rfl
@[simp] theorem writeData_txc (b : Byte) (s : State) : (writeData b s).txc = false := rfl
@[simp] theorem writeData_fault (b : Byte) (s : State) : (writeData b s).fault = s.fault := rfl
@[simp] theorem writeData_tx (b : Byte) (s : State) : (writeData b s).tx = s.tx ++ [.byte b] := rfl
@[simp] theorem writeData_appOut (b : Byte) (s : State) : (writeData b s).appOut = s.appOut := rfl
@[simp] theorem writeData_stall (b : Byte) (s : State) : (writeData b s).stall = s.stall := rfl
@[simp] theorem writeData_agenda (b : Byte) (s : State) : (writeData b s).agenda = s.agenda := rfl
@[simp] theorem writeData_draws (b : Byte) (s : State) : (writeData b s).draws = s.draws := rfl

@[simp] theorem resetEvent_params (s : State) : (resetEvent s).params = s.params := rfl
@[simp] theorem resetEvent_hreg (s : State) : (resetEvent s).hreg = [] := rfl
@[simp] theorem resetEvent_buf (s : State) : (resetEvent s).buf = [] := rfl
@[simp] theorem resetEvent_tmrSt (s : State) : (resetEvent s).tmrSt = .idle := rfl
@[simp] theorem resetEvent_tmrCnt (s : State) : (resetEvent s).tmrCnt = 0 := rfl
@[simp] theorem resetEvent_addr (s : State) : (resetEvent s).addr = s.params.serverAddr := rfl
@[simp] theorem resetEvent_thresh (s : State) : (resetEvent s).thresh = s.params.threshTicks := rfl
@[simp] theorem resetEvent_rxie (s : State) : (resetEvent s).rxie = true := rfl
@[simp] theorem resetEvent_dir (s : State) : (resetEvent s).dir = .rx := rfl
@[simp] theorem resetEvent_rxq (s : State) : (resetEvent s).rxq = [] := rfl
@[simp] theorem resetEvent_dre (s : State) : (resetEvent s).dre = false := rfl
@[simp] theorem resetEvent_txc (s : State) : (resetEvent s).txc = false := rfl
@[simp] theorem resetEvent_fault (s : State) : (resetEvent s).fault = false := rfl
@[simp] theorem resetEvent_tx (s : State) : (resetEvent s).tx = s.tx := rfl
@[simp] theorem resetEvent_appOut (s : State) : (resetEvent s).appOut = s.appOut := rfl
@[simp] theorem resetEvent_stall (s : State) : (resetEvent s).stall = none := rfl
@[simp] theorem resetEvent_agenda (s : State) : (resetEvent s).agenda = s.agenda := rfl
@[simp] theorem resetEvent_draws (s : State) : (resetEvent s).draws = s.draws := rfl

@[simp] theorem raiseFault_fault (s : State) : (raiseFault s).fault = true := rfl
@[simp] theorem raiseFault_params (s : State) : (raiseFault s).params = s.params := rfl
@[simp] theorem raiseFault_agenda (s : State) : (raiseFault s).agenda = s.agenda := rfl
@[simp] theorem raiseFault_draws (s : State) : (raiseFault s).draws = s.draws + 1 := rfl

end Sys2Proof.Machine
end

