-- ==== Sys2Proof/Laws/Memory.lean ====
section
/-! SUPPORT. The holding-register store: what a write changes, and that every operation keeps the canonical form. -/

namespace Sys2Proof.Machine

/-- What register `i` holds after register `j` was written. -/
theorem Memory.get_set (base : Word) (j : Nat) (v : Word) (m : Memory) (i : Nat)
    (hs : m.Pairwise (fun p q => p.1 < q.1)) :
    Memory.get base i (Memory.set base j v m) = if i = j then v else Memory.get base i m := by
  induction m with
  | nil => grind [Memory.get, Memory.set]
  | cons p rest ih =>
    obtain ⟨k, w⟩ := p
    rw [List.pairwise_cons] at hs
    have ih := ih hs.2
    have unl : ∀ (r : Memory), (∀ q ∈ r, i < q.1) → Memory.get base i r = Memory.unlisted base i := by
      intro r hr
      induction r with
      | nil => rfl
      | cons q r ihr =>
        obtain ⟨a, b⟩ := q
        have h1 := hr (a, b) (by simp)
        simp only [Memory.get]
        rw [if_neg (by simp at h1; omega)]
        exact ihr fun q hq => hr q (by simp [hq])
    by_cases hij : i = j
    · subst hij
      have := unl rest
      simp only [Memory.set]
      split
      · split
        · rename_i h1 h2
          rw [if_pos trivial, h2]
          refine unl ((k, w) :: rest) ?_
          intro q hq
          rcases List.mem_cons.1 hq with rfl | hq
          · exact h1
          · have := hs.1 q hq
            simp at this
            omega
        · simp [Memory.get]
      · split
        · split
          · rename_i h1 h2 h3
            rw [if_pos trivial, h3]
            refine unl rest ?_
            intro q hq
            have := hs.1 q hq
            simp at this
            omega
          · simp [Memory.get]
        · simp_all [Memory.get]
    · simp only [Memory.set]
      split
      · split <;> simp [Memory.get, hij]
      · split
        · split <;> grind [Memory.get]
        · simp only [Memory.get]
          rw [ih]
          grind

/-- Every entry after a write was there before or is the one written, and the written one is not the start-up
value. -/
theorem Memory.mem_set {base : Word} {j : Nat} {v : Word} {m : Memory} {p : Nat × Word}
    (h : p ∈ Memory.set base j v m) : p ∈ m ∨ (p = (j, v) ∧ v ≠ Memory.unlisted base j) := by
  induction m with
  | nil => grind [Memory.set]
  | cons q rest ih => grind [Memory.set]

/-- A write within the store keeps the canonical form. -/
theorem Memory.set_wf {base : Word} {n j : Nat} {m : Memory} (v : Word) (hj : j < n) (h : Memory.wf base n m) :
    Memory.wf base n (Memory.set base j v m) := by
  refine ⟨?_, fun p hp => ?_⟩
  · have hs := h.1
    clear h
    induction m with
    | nil => grind [Memory.set]
    | cons q rest ih =>
      have hm : ∀ p ∈ Memory.set base j v rest, p ∈ rest ∨ (p = (j, v) ∧ v ≠ Memory.unlisted base j) :=
        fun p hp => Memory.mem_set hp
      rw [List.pairwise_cons] at hs
      have ih := ih hs.2
      simp only [Memory.set]
      split
      · split
        · exact List.pairwise_cons.2 hs
        · refine List.pairwise_cons.2 ⟨?_, List.pairwise_cons.2 hs⟩
          intro r hr
          rcases List.mem_cons.1 hr with rfl | hr
          · assumption
          · have := hs.1 r hr
            simp at this ⊢
            omega
      · split
        · split
          · exact hs.2
          · refine List.pairwise_cons.2 ⟨?_, hs.2⟩
            intro r hr
            have := hs.1 r hr
            simp at this ⊢
            omega
        · refine List.pairwise_cons.2 ⟨?_, ih⟩
          intro r hr
          rcases hm r hr with hr | ⟨rfl, _⟩
          · exact hs.1 r hr
          · simp
            omega
  · rcases Memory.mem_set hp with hp | ⟨rfl, hv⟩
    · exact h.2 p hp
    · exact ⟨hj, hv⟩

/-- An index below every listed one reads as not listed. -/
theorem Memory.get_below {base : Word} {i : Nat} {m : Memory} (h : ∀ p ∈ m, i < p.1) :
    Memory.get base i m = Memory.unlisted base i := by
  induction m with
  | nil => rfl
  | cons q rest ih =>
    obtain ⟨j, w⟩ := q
    have hj : i < j := h (j, w) (by simp)
    rw [Memory.get, if_neg (by omega)]
    exact ih fun p hp => h p (by simp [hp])

/-- The form is canonical: two stores that read alike are equal data. -/
theorem Memory.ext {base : Word} {k l : Nat} : ∀ {m n : Memory}, Memory.wf base k m → Memory.wf base l n →
    (∀ i, Memory.get base i m = Memory.get base i n) → m = n := by
  intro m
  induction m with
  | nil =>
    intro n _ hn h
    cases n with
    | nil => rfl
    | cons q rest =>
      obtain ⟨j, w⟩ := q
      have := h j
      simp only [Memory.get, if_true] at this
      exact absurd this.symm (hn.2 (j, w) (by simp)).2
  | cons p rest ih =>
    obtain ⟨i, v⟩ := p
    intro n hm hn h
    have hv := (hm.2 (i, v) (by simp)).2
    have h1 := List.pairwise_cons.1 hm.1
    cases n with
    | nil =>
      have := h i
      simp only [Memory.get, if_true] at this
      exact absurd this hv
    | cons q rest' =>
      obtain ⟨j, w⟩ := q
      have hw := (hn.2 (j, w) (by simp)).2
      have h2 := List.pairwise_cons.1 hn.1
      have hlt : ¬ i < j := by
        intro hij
        have := h i
        rw [Memory.get_below (m := (j, w) :: rest') (fun p hp => by
          rcases List.mem_cons.1 hp with rfl | hp
          · exact hij
          · exact lt_trans hij (h2.1 p hp))] at this
        simp only [Memory.get, if_true] at this
        exact hv this
      have hgt : ¬ j < i := by
        intro hij
        have := h j
        rw [Memory.get_below (m := (i, v) :: rest) (fun p hp => by
          rcases List.mem_cons.1 hp with rfl | hp
          · exact hij
          · exact lt_trans hij (h1.1 p hp))] at this
        simp only [Memory.get, if_true] at this
        exact hw this.symm
      obtain rfl : i = j := by omega
      have hvw : v = w := by simpa [Memory.get] using h i
      subst hvw
      have : rest = rest' := by
        refine ih ⟨h1.2, fun p hp => hm.2 p (by simp [hp])⟩ ⟨h2.2, fun p hp => hn.2 p (by simp [hp])⟩ fun a => ?_
        by_cases ha : a = i
        · subst ha
          rw [Memory.get_below h1.1, Memory.get_below h2.1]
        · simpa [Memory.get, ha] using h a
      rw [this]
theorem Memory.nil_wf (base : Word) (n : Nat) : Memory.wf base n [] := by simp [Memory.wf]

/-- Everything a register write can do. -/
theorem State.writeReg_eq {i : Nat} {v : Word} {s t : State} (h : s.writeReg i v = some t) :
    i < s.params.nRegs ∧ t = { s with hreg := Memory.set s.params.initBase i v s.hreg } := by
  simp only [State.writeReg] at h
  split at h
  · exact ⟨‹_›, by simpa using h.symm⟩
  · simp at h

/-- A register write within the store has an answer; outside it has none. -/
theorem State.writeReg_isSome (i : Nat) (v : Word) (s : State) :
    (s.writeReg i v).isSome = decide (i < s.params.nRegs) := by
  simp only [State.writeReg]
  split <;> simp_all

/-- What the registers hold after a register write. -/
theorem State.regAt_writeReg {i : Nat} {v : Word} {s t : State} (hs : s.hreg.Pairwise (fun p q => p.1 < q.1))
    (h : s.writeReg i v = some t) (a : Nat) : t.regAt a = if a = i then v else s.regAt a := by
  obtain ⟨-, rfl⟩ := State.writeReg_eq h
  simp [State.regAt, Memory.get_set _ _ _ _ _ hs]

/-- The multi-register read answers exactly when it stays within the store or reads nothing, and then gives the
registers' values in order. -/
theorem State.readRegs_eq (s : State) (n : Nat) :
    ∀ start, s.readRegs start n =
      if n = 0 ∨ start + n ≤ s.params.nRegs then some ((List.range n).map fun i => s.regAt (start + i)) else none := by
  induction n with
  | zero => intro start; simp [State.readRegs]
  | succ n ih =>
    intro start
    simp only [State.readRegs, State.readReg]
    by_cases h : start < s.params.nRegs
    · rw [if_pos h]
      simp only [ih]
      by_cases h2 : n = 0 ∨ start + 1 + n ≤ s.params.nRegs
      · rw [if_pos h2, if_pos (by omega)]
        simp [List.range_succ_eq_map, Function.comp_def, Nat.add_assoc, Nat.add_comm 1]
      · rw [if_neg h2, if_neg (by omega)]
        rfl
    · rw [if_neg h, if_neg (by omega)]

/-- Everything a multi-register write changes: the store, and nothing else. -/
theorem State.writeRegs_frame {vs : List Word} : ∀ {start : Nat} {s t : State},
    State.writeRegs start vs s = some t → t = { s with hreg := t.hreg } := by
  induction vs with
  | nil => intro start s t h; simp [State.writeRegs] at h; subst h; rfl
  | cons v vs ih =>
    intro start s t h
    simp only [State.writeRegs] at h
    split at h
    · simp at h
    · rename_i u hu
      obtain ⟨-, rfl⟩ := State.writeReg_eq hu
      have := ih h
      rw [this]

/-- The multi-register write answers exactly when it stays within the store or writes nothing. -/
theorem State.writeRegs_isSome (vs : List Word) : ∀ (start : Nat) (s : State),
    (State.writeRegs start vs s).isSome = true ↔ (vs.length = 0 ∨ start + vs.length ≤ s.params.nRegs) := by
  induction vs with
  | nil => intro start s; simp [State.writeRegs]
  | cons v vs ih =>
    intro start s
    simp only [State.writeRegs]
    split
    · rename_i h
      have := State.writeReg_isSome start v s
      rw [h] at this
      simp at this
      simp
      omega
    · rename_i t h
      obtain ⟨h1, rfl⟩ := State.writeReg_eq h
      rw [ih]
      cases vs with
      | nil => simp; omega
      | cons w ws => simp; omega

/-- A multi-register write keeps the canonical form of the store. -/
theorem State.writeRegs_wf {vs : List Word} : ∀ {start : Nat} {s t : State},
    Memory.wf s.params.initBase s.params.nRegs s.hreg → State.writeRegs start vs s = some t →
    Memory.wf s.params.initBase s.params.nRegs t.hreg := by
  induction vs with
  | nil => intro start s t hs h; simp [State.writeRegs] at h; subst h; exact hs
  | cons v vs ih =>
    intro start s t hs h
    simp only [State.writeRegs] at h
    split at h
    · simp at h
    · rename_i u hu
      obtain ⟨h1, rfl⟩ := State.writeReg_eq hu
      exact ih (s := { s with hreg := Memory.set s.params.initBase start v s.hreg }) (Memory.set_wf v h1 hs) h

/-- What the registers hold after a multi-register write. -/
theorem State.regAt_writeRegs {vs : List Word} : ∀ {start : Nat} {s t : State},
    Memory.wf s.params.initBase s.params.nRegs s.hreg → State.writeRegs start vs s = some t →
    ∀ a, t.regAt a = if start ≤ a then (vs[a - start]?).getD (s.regAt a) else s.regAt a := by
  induction vs with
  | nil => intro start s t _ h a; simp [State.writeRegs] at h; subst h; simp
  | cons v vs ih =>
    intro start s t hs h a
    simp only [State.writeRegs] at h
    split at h
    · simp at h
    · rename_i u hu
      have hr := State.regAt_writeReg hs.1 hu a
      obtain ⟨h1, hu'⟩ := State.writeReg_eq hu
      have hw : Memory.wf u.params.initBase u.params.nRegs u.hreg := by
        rw [hu']; exact Memory.set_wf v h1 hs
      rw [ih hw h a, hr]
      rcases Nat.lt_trichotomy a start with h2 | rfl | h2
      · rw [if_neg (by omega), if_neg (by omega), if_neg (by omega)]
      · simp
      · rw [if_pos (by omega), if_neg (by omega), if_pos (by omega)]
        obtain ⟨k, rfl⟩ : ∃ k, a = start + 1 + k := ⟨a - (start + 1), by omega⟩
        rw [show start + 1 + k - (start + 1) = k by omega, show start + 1 + k - start = k + 1 by omega]
        simp

end Sys2Proof.Machine
end

