-- ==== Sys2Proof/Laws/Transmitter.lean ====
section
/-! SUPPORT. What a transmission can do: complete while the serial peripheral is live, or stay where it waits. -/

namespace Sys2Proof.Machine

/-- The byte loop while the serial peripheral is live: every byte goes to the line. -/
theorem sendBytes_live (resp : List Byte) : ∀ s : State, s.stall = none →
    sendBytes resp s = ({ s with
      tx := s.tx ++ resp.map .byte
      dre := if resp = [] then s.dre else false
      txc := if resp = [] then s.txc else false }, true) := by
  induction resp with
  | nil => intro s _; simp [sendBytes]
  | cons b bs ih =>
    intro s hs
    have hw : waitDre s = some { s with dre := true } := by
      simp only [waitDre, State.answer, hs]
      cases h : s.dre
      · simp [hs]
      · cases s; simp_all
    simp only [sendBytes, hw]
    rw [ih _ (by simpa using hs)]
    cases bs <;> simp [writeData]

/-- A transmission while the serial peripheral is live: the trace gains one bracketed group, and the direction is
RX afterwards (R147). -/
theorem transmit_live (resp : List Byte) (s : State) (hs : s.stall = none) (hr : resp ≠ []) :
    transmit resp s = { s with tx := s.tx ++ txGroup resp, dir := .rx, dre := true, txc := true } := by
  have h := sendBytes_live resp { s with dir := .tx, tx := s.tx ++ [.dirTx] } hs
  simp only [transmit, h, if_neg hr]
  simp [waitTxc, State.answer, hs, txGroup]

/-- Everything a wait can do. -/
theorem State.answer_eq {s t : State} (h : s.answer = some t) : t = { s with stall := t.stall } := by
  simp only [State.answer] at h
  split at h <;> simp at h <;> subst h <;> rfl

/-- Everything a wait for `dre` can do. -/
theorem waitDre_eq {s t : State} (h : waitDre s = some t) : t = { s with dre := true, stall := t.stall } := by
  simp only [waitDre] at h
  split at h
  · simp at h; subst h; cases s; simp_all
  · simp only [Option.map_eq_some_iff] at h
    obtain ⟨u, hu, rfl⟩ := h
    rw [State.answer_eq hu]

/-- Everything a wait for `txc` can do. -/
theorem waitTxc_eq {s t : State} (h : waitTxc s = some t) :
    t = { s with dre := t.dre, txc := true, stall := t.stall } := by
  simp only [waitTxc] at h
  split at h
  · simp at h; subst h; cases s; simp_all
  · simp only [Option.map_eq_some_iff] at h
    obtain ⟨u, hu, rfl⟩ := h
    rw [State.answer_eq hu]

/-- Everything the byte loop can do: a prefix of the bytes goes to the line, all of them if it ended. -/
theorem sendBytes_eq (resp : List Byte) : ∀ s : State, ∃ n ≤ resp.length,
    (sendBytes resp s).1 = { s with
      tx := s.tx ++ (resp.take n).map .byte
      dre := (sendBytes resp s).1.dre
      txc := (sendBytes resp s).1.txc
      stall := (sendBytes resp s).1.stall } ∧
    ((sendBytes resp s).2 = true → n = resp.length) := by
  induction resp with
  | nil => intro s; exact ⟨0, by simp, by simp [sendBytes], by simp⟩
  | cons b bs ih =>
    intro s
    simp only [sendBytes]
    split
    · exact ⟨0, by simp, by simp, by simp⟩
    · rename_i t ht
      have ht := waitDre_eq ht
      obtain ⟨n, hn, h1, h2⟩ := ih (writeData b t)
      refine ⟨n + 1, by simpa using hn, ?_, fun h => by simpa using h2 h⟩
      have hm : ({ s with
          tx := s.tx ++ ((b :: bs).take (n + 1)).map .byte
          dre := (sendBytes bs (writeData b t)).1.dre
          txc := (sendBytes bs (writeData b t)).1.txc
          stall := (sendBytes bs (writeData b t)).1.stall } : State) = { writeData b t with
          tx := (writeData b t).tx ++ (bs.take n).map .byte
          dre := (sendBytes bs (writeData b t)).1.dre
          txc := (sendBytes bs (writeData b t)).1.txc
          stall := (sendBytes bs (writeData b t)).1.stall } := by
        rw [ht]
        simp [writeData]
      rw [hm]
      exact h1

/-- Everything a transmission can do, whatever the serial peripheral does: it completes with the whole response on
the line and the direction back at RX, or it stays with the direction at TX and a prefix of the response sent. -/
theorem transmit_eq (resp : List Byte) (s : State) :
    (transmit resp s = { s with
        dir := .rx
        tx := s.tx ++ txGroup resp
        dre := (transmit resp s).dre
        txc := (transmit resp s).txc
        stall := (transmit resp s).stall }) ∨
    (∃ n ≤ resp.length, transmit resp s = { s with
        dir := .tx
        tx := s.tx ++ .dirTx :: (resp.take n).map .byte
        dre := (transmit resp s).dre
        txc := (transmit resp s).txc
        stall := (transmit resp s).stall }) := by
  obtain ⟨n, hn, h1, h2⟩ := sendBytes_eq resp { s with dir := .tx, tx := s.tx ++ [.dirTx] }
  simp only [transmit]
  split
  · rename_i t ht
    rw [ht] at h1
    right
    refine ⟨n, hn, ?_⟩
    simpa using h1
  · rename_i t ht
    rw [ht] at h1 h2
    obtain rfl := h2 rfl
    split
    · right
      refine ⟨resp.length, le_refl _, ?_⟩
      simpa using h1
    · rename_i u hu
      left
      have hu := waitTxc_eq hu
      simp only at h1
      rw [h1] at hu
      rw [hu]
      simp [txGroup]

end Sys2Proof.Machine
end

