-- ==== Sys2Proof/Laws/Events.lean ====
section
/-! SUPPORT. What each event can do, said once: the step's inversion, the meanings' possible outcomes, the timer, the
intake, the receiver. -/

namespace Sys2Proof.Machine

/-- Everything the receiver can do with arriving bytes: the queue may grow, up to its depth. -/
theorem State.receiveAll_eq (arr : List Byte) (s : State) :
    s.receiveAll arr = { s with rxq := s.rxq ++ arr.take (s.params.rxDepth - s.rxq.length) } := by
  induction arr generalizing s with
  | nil => simp [State.receiveAll]
  | cons b bs ih =>
    have hstep : s.receiveAll (b :: bs) = (s.receive b).receiveAll bs := rfl
    rw [hstep, ih]
    simp only [State.receive]
    split
    · rename_i h
      obtain ⟨k, hk⟩ : ∃ k, s.params.rxDepth - s.rxq.length = k + 1 := ⟨_, (Nat.succ_pred_eq_of_pos (by omega)).symm⟩
      rw [hk]
      simp [show s.params.rxDepth - (s.rxq.length + 1) = k by omega]
    · rename_i h
      rw [show s.params.rxDepth - s.rxq.length = 0 by omega]
      simp

/-- The receive queue never grows beyond its depth. -/
theorem State.receiveAll_length (arr : List Byte) (s : State) (h : s.rxq.length ≤ s.params.rxDepth) :
    (s.receiveAll arr).rxq.length ≤ s.params.rxDepth := by
  simp [State.receiveAll_eq]
  omega

/-- Everything a Tick can do. -/
theorem tick_cases (s : State) :
    (s.tmrSt ≠ .counting ∧ tick s = s) ∨
    (s.tmrSt = .counting ∧ s.tmrCnt + 1 = s.thresh ∧ tick s = { s with tmrCnt := s.tmrCnt + 1, tmrSt := .expired }) ∨
    (s.tmrSt = .counting ∧ s.tmrCnt + 1 ≠ s.thresh ∧ tick s = { s with tmrCnt := s.tmrCnt + 1 }) := by
  unfold tick
  cases h : s.tmrSt
  · simp
  · simp only
    split
    · rename_i h2; simp [h2]
    · rename_i h2; simp [h2]
  · simp

/-- Everything a rearm can do. -/
theorem rearm_eq (s : State) :
    rearm s = { s with tmrCnt := 0, tmrSt := if s.tmrSt = .expired then .expired else .counting } := by
  unfold rearm
  cases s.tmrSt <;> simp

/-- Everything an append can do. -/
theorem append_eq (b : Byte) (s : State) :
    append b s = { s with buf := if s.len < s.params.frameCap then s.buf ++ [b] else s.buf } := by
  unfold append
  split <;> rfl

/-- Everything an intake can do (R101). -/
theorem intake_eq {s t : State} (h : intake s = some t) : ∃ b rest, s.rxq = b :: rest ∧ t = { s with
    rxq := rest
    tmrCnt := 0
    tmrSt := if s.tmrSt = .expired then .expired else .counting
    buf := if s.len < s.params.frameCap then s.buf ++ [b] else s.buf } := by
  unfold intake at h
  split at h
  · simp at h
  · rename_i b rest hq
    refine ⟨b, rest, hq, ?_⟩
    simp only [Option.some.injEq] at h
    rw [← h, append_eq, rearm_eq]
    simp [State.len]
    rfl

/-- What a command can leave behind when it answers a next state: the store in its canonical form, the output trace,
the direction, `dre`, `txc` and the peripheral's answers; nothing else changes, and the trace gains nothing, one
bracketed group, or a truncated group with the direction left at TX (R118, R153). -/
structure CommandEffect (s t : State) : Prop where
  frame : t = { s with hreg := t.hreg, tx := t.tx, dir := t.dir, dre := t.dre, txc := t.txc, stall := t.stall }
  store : Memory.wf s.params.initBase s.params.nRegs s.hreg → Memory.wf s.params.initBase s.params.nRegs t.hreg
  sent : (t.dir = s.dir ∧ t.tx = s.tx) ∨
    (∃ resp, t.dir = .rx ∧ t.tx = s.tx ++ txGroup resp) ∨
    (∃ part : List Byte, t.dir = .tx ∧ t.tx = s.tx ++ .dirTx :: part.map .byte)

/-- A command effect composed of store writes and a transmission. -/
theorem CommandEffect.of_transmit {s u : State} (resp : List Byte) (hu : u = { s with hreg := u.hreg })
    (hw : Memory.wf s.params.initBase s.params.nRegs s.hreg → Memory.wf s.params.initBase s.params.nRegs u.hreg) :
    CommandEffect s (transmit resp u) := by
  rcases transmit_eq resp u with h | ⟨n, -, h⟩
  · refine ⟨?_, ?_, .inr (.inl ⟨resp, ?_, ?_⟩)⟩
    · rw [h, hu]
    · rw [h]; exact hw
    · rw [h]
    · rw [h, hu]
  · refine ⟨?_, ?_, .inr (.inr ⟨resp.take n, ?_, ?_⟩)⟩
    · rw [h, hu]
    · rw [h]; exact hw
    · rw [h]
    · rw [h, hu]

theorem readRegisters_effect {func : Byte} {start count : Word} {s t : State}
    (h : readRegisters func start count s = .next t) : CommandEffect s t := by
  unfold readRegisters at h
  split at h
  · simp at h
  · simp only [Host.Outcome.next.injEq] at h
    subst h
    exact .of_transmit _ rfl id

theorem illegalFunction_effect {func : Byte} {s t : State} (h : illegalFunction func s = .next t) :
    CommandEffect s t := by
  simp only [illegalFunction, Host.Outcome.next.injEq] at h
  subst h
  exact .of_transmit _ rfl id

/-- Everything an instruction can leave behind. -/
theorem exec_effect {i : Instr} {s t : State} (h : exec i s = .next t) : CommandEffect s t := by
  cases i with
  | rdco => exact illegalFunction_effect h
  | rddi => exact illegalFunction_effect h
  | rdhr start count => exact readRegisters_effect h
  | rdir start count => exact readRegisters_effect h
  | wrsc => exact illegalFunction_effect h
  | wrsr reg val =>
    simp only [exec, execWrsr] at h
    split at h
    · simp at h
    · rename_i u hu
      obtain ⟨h1, h2⟩ := State.writeReg_eq hu
      simp only [Host.Outcome.next.injEq] at h
      subst h
      refine .of_transmit _ (by rw [h2]) fun hw => ?_
      rw [h2]
      exact Memory.set_wf _ h1 hw
  | wrmc => exact illegalFunction_effect h
  | wrmr start count bytecount vals =>
    simp only [exec, execWrmr] at h
    split at h
    · simp at h
    · rename_i u hu
      simp only [Host.Outcome.next.injEq] at h
      subst h
      exact .of_transmit _ (State.writeRegs_frame hu) fun hw => State.writeRegs_wf hw hu
  | other func =>
    simp only [exec, execOther, Host.Outcome.next.injEq] at h
    subst h
    exact ⟨rfl, id, .inl ⟨rfl, rfl⟩⟩

/-- No instruction answers a refusal, and the only fault is the access outside the store. -/
theorem exec_cases (i : Instr) (s : State) :
    (∃ t, exec i s = .next t) ∨ exec i s = .fault .storeIndexOutOfRange := by
  cases i <;> simp only [exec, execRdco, execRddi, execWrsc, execWrmc, execRdhr, execRdir, execWrsr, execWrmr,
    execOther, illegalFunction, readRegisters] <;> (try split) <;> simp

/-- Everything a Decode can do: the epilogue alone on a rejected frame; the command and the end of the event; or a
Fault. -/
theorem decodeEvent_cases {arr : List Byte} {stall : Option Nat} {s t : State}
    (h : decodeEvent arr stall s = .next t) :
    (∃ r, fetch s = .reject r ∧ t = finishDecode arr (enterDecode stall s)) ∨
    (∃ i u, fetch s = .instr i ∧ exec i (enterDecode stall s) = .next u ∧ t = finishDecode arr u) ∨
    (∃ i, fetch s = .instr i ∧ exec i (enterDecode stall s) = .fault .storeIndexOutOfRange ∧
      t = raiseFault (enterDecode stall s)) := by
  unfold decodeEvent at h
  split at h
  · rename_i r hr
    exact .inl ⟨r, hr, by simpa using h.symm⟩
  · rename_i i hi
    rcases exec_cases i (enterDecode stall s) with ⟨u, hu⟩ | hu
    · rw [hu] at h
      exact .inr (.inl ⟨i, u, hi, hu, by simpa [afterCommand] using h.symm⟩)
    · rw [hu] at h
      exact .inr (.inr ⟨i, hi, hu, by simpa [afterCommand] using h.symm⟩)

/-- The step's inversion: a next state is one event's effect, and in a faulted state that event is Reset. -/
theorem step_cases {s t : State} (h : step s = .next t) :
    ∃ e rest, nextEvent s = (e, rest) ∧ (s.fault = true → e = .reset) ∧
      runEvent e (beginEvent rest s) = .next t := by
  unfold step machineStep at h
  rcases hn : nextEvent s with ⟨e, rest⟩
  simp only [hn] at h
  refine ⟨e, rest, rfl, ?_, ?_⟩
  · intro hf
    by_contra hne
    simp [hf, hne] at h
  · split at h
    · simp at h
    · exact h

/-- A step in a state without a Fault runs its next event. -/
theorem step_of_no_fault {s : State} (h : s.fault = false) :
    step s = runEvent (nextEvent s).1 (beginEvent (nextEvent s).2 s) := by
  simp [step, machineStep, h]

/-- With an expiry pending no intake is forced: a scheduled event is the next one. -/
theorem nextEvent_of_expired {s : State} {e : Event} {rest : List Event} (h : s.tmrSt = .expired)
    (ha : s.agenda = e :: rest) : nextEvent s = (e, rest) := by
  have hf : s.intakeForced = false := by simp [State.intakeForced, h]
  unfold nextEvent
  rw [ha, hf]
  cases e <;> rfl

/-- Everything that ends a Decode keeps its parameters and leaves the fault mark alone. -/
theorem finishDecode_eq (arr : List Byte) (s : State) :
    finishDecode arr s = if s.dir = .tx then { s with rxq := (s.receiveAll arr).rxq }
      else { s with rxq := (s.receiveAll arr).rxq.tail, buf := [], tmrSt := .idle, tmrCnt := 0, rxie := true,
                    stall := none } := by
  unfold finishDecode State.decoding
  rw [State.receiveAll_eq]
  cases s.dir <;> simp [leaveDecode]

/-- Everything an arriving byte can do (R94). -/
theorem State.receive_eq (b : Byte) (s : State) :
    s.receive b = { s with rxq := if s.rxq.length < s.params.rxDepth then s.rxq ++ [b] else s.rxq } := by
  unfold State.receive
  split <;> rfl

/-- An APP event answers a next state outside a Decode only. -/
theorem outsideDecode_eq {s t : State} {run : Host.Outcome State Fault Refusal}
    (h : outsideDecode s run = .next t) : s.dir = .rx ∧ run = .next t := by
  unfold outsideDecode State.decoding at h
  cases hd : s.dir
  · simpa [hd] using h
  · simp [hd] at h

/-- What each event can do when it answers a next state, its guard included (R180). -/
def EventEffect (s t : State) : Event → Prop
  | .reset => t = resetEvent s
  | .rxArrive b => t = { s with rxq := if s.rxq.length < s.params.rxDepth then s.rxq ++ [b] else s.rxq }
  | .tick => t = tick s
  | .rxIntake => s.rxie = true ∧ ∃ b rest, s.rxq = b :: rest ∧ t = { s with
      rxq := rest
      tmrCnt := 0
      tmrSt := if s.tmrSt = .expired then .expired else .counting
      buf := if s.len < s.params.frameCap then s.buf ++ [b] else s.buf }
  | .decode arr stall => s.dir = .rx ∧ s.tmrSt = .expired ∧
      ((∃ r, fetch s = .reject r ∧ t = finishDecode arr (enterDecode stall s)) ∨
        (∃ i u, fetch s = .instr i ∧ exec i (enterDecode stall s) = .next u ∧ t = finishDecode arr u) ∨
        (∃ i, fetch s = .instr i ∧ exec i (enterDecode stall s) = .fault .storeIndexOutOfRange ∧
          t = raiseFault (enterDecode stall s)))
  | .appReadReg i => s.dir = .rx ∧
      ((i < s.params.nRegs ∧ t = { s with appOut := s.appOut ++ [s.regAt i] }) ∨
        (s.params.nRegs ≤ i ∧ t = raiseFault s))
  | .appWriteReg i v => s.dir = .rx ∧
      ((i < s.params.nRegs ∧ t = { s with hreg := Memory.set s.params.initBase i v s.hreg }) ∨
        (s.params.nRegs ≤ i ∧ t = raiseFault s))
  | .appSetAddr a => s.dir = .rx ∧ t = { s with addr := a }
  | .appSetBaud n => s.dir = .rx ∧ s.tmrSt = .idle ∧ 1 ≤ n ∧ t = { s with thresh := n }
  | .serialStatus dre txc => s.dir = .rx ∧ t = { s with dre := dre, txc := txc }

/-- Everything an event can do. -/
theorem runEvent_effect {e : Event} {s t : State} (h : runEvent e s = .next t) : EventEffect s t e := by
  cases e with
  | reset => simpa [runEvent, eq_comm, EventEffect] using h
  | rxArrive b =>
    simp only [runEvent, Host.Outcome.next.injEq, State.receive_eq] at h
    exact h.symm
  | tick =>
    simp only [runEvent, Host.Outcome.next.injEq] at h
    exact h.symm
  | rxIntake =>
    simp only [runEvent] at h
    split at h
    · rename_i hp
      split at h
      · simp at h
      · rename_i u hu
        simp only [Host.Outcome.next.injEq] at h
        subst h
        exact ⟨by simp [State.intakePending] at hp; exact hp.2, intake_eq hu⟩
    · simp at h
  | decode arr stall =>
    simp only [runEvent] at h
    split at h
    · rename_i hp
      simp only [State.decodePending, State.decoding, Bool.and_eq_true, beq_iff_eq, Bool.not_eq_true',
        beq_eq_false_iff_ne] at hp
      refine ⟨?_, hp.1, decodeEvent_cases h⟩
      cases hd : s.dir
      · rfl
      · exact absurd hd hp.2
    · simp at h
  | appReadReg i =>
    obtain ⟨hd, h⟩ := outsideDecode_eq h
    refine ⟨hd, ?_⟩
    unfold State.readReg at h
    by_cases hi : i < s.params.nRegs
    · simp only [if_pos hi, Host.Outcome.next.injEq] at h
      exact .inl ⟨hi, h.symm⟩
    · simp only [if_neg hi, Host.Outcome.next.injEq] at h
      exact .inr ⟨by omega, h.symm⟩
  | appWriteReg i v =>
    obtain ⟨hd, h⟩ := outsideDecode_eq h
    refine ⟨hd, ?_⟩
    unfold State.writeReg at h
    by_cases hi : i < s.params.nRegs
    · simp only [if_pos hi, Host.Outcome.next.injEq] at h
      exact .inl ⟨hi, h.symm⟩
    · simp only [if_neg hi, Host.Outcome.next.injEq] at h
      exact .inr ⟨by omega, h.symm⟩
  | appSetAddr a =>
    obtain ⟨hd, h⟩ := outsideDecode_eq h
    simp only [Host.Outcome.next.injEq] at h
    exact ⟨hd, h.symm⟩
  | appSetBaud n =>
    obtain ⟨hd, h⟩ := outsideDecode_eq h
    by_cases hs : s.tmrSt = .idle
    · by_cases hn : n = 0
      · simp [hs, hn] at h
      · rw [if_neg (not_not.2 hs), if_neg hn, Host.Outcome.next.injEq] at h
        exact ⟨hd, hs, by omega, h.symm⟩
    · simp [hs] at h
  | serialStatus dre txc =>
    obtain ⟨hd, h⟩ := outsideDecode_eq h
    simp only [Host.Outcome.next.injEq] at h
    exact ⟨hd, h.symm⟩

/-- Everything a step can do. -/
theorem step_effect {s t : State} (h : step s = .next t) :
    (s.fault = true → (nextEvent s).1 = .reset) ∧
      EventEffect (beginEvent (nextEvent s).2 s) t (nextEvent s).1 := by
  obtain ⟨e, rest, hn, hf, hr⟩ := step_cases h
  rw [hn]
  exact ⟨hf, runEvent_effect hr⟩

/-- Everything the end of a Decode leaves of the command's effect. -/
theorem finishDecode_effect {s u : State} (arr : List Byte) (h : CommandEffect s u) : finishDecode arr u = { s with
    hreg := u.hreg
    tx := u.tx
    dir := u.dir
    dre := u.dre
    txc := u.txc
    rxq := if u.dir = .tx then (s.receiveAll arr).rxq else (s.receiveAll arr).rxq.tail
    buf := if u.dir = .tx then s.buf else []
    tmrSt := if u.dir = .tx then s.tmrSt else .idle
    tmrCnt := if u.dir = .tx then s.tmrCnt else 0
    rxie := if u.dir = .tx then s.rxie else true
    stall := if u.dir = .tx then u.stall else none } := by
  rw [finishDecode_eq, State.receiveAll_eq, State.receiveAll_eq]
  conv_lhs => rw [h.frame]
  cases u.dir <;> simp

end Sys2Proof.Machine
end

