-- ==== Sys2Proof/Laws/Operands.lean ====
section
/-! SUPPORT. What the clamp can answer, and the lengths of the responses. -/

namespace Sys2Proof.Machine

/-- Everything the clamp can answer (R120). -/
theorem clamp_eq (nRegs start count : Nat) :
    (start < nRegs ∧ nRegs < start + min count 127 ∧ clamp nRegs start count = nRegs - start) ∨
    (¬(start < nRegs ∧ nRegs < start + min count 127) ∧ clamp nRegs start count = min count 127) := by
  by_cases h : start < nRegs ∧ nRegs < start + min count 127
  · exact .inl ⟨h.1, h.2, if_pos h⟩
  · exact .inr ⟨h, if_neg h⟩

/-- The clamp never passes 127 (R123). -/
theorem clamp_le (nRegs start count : Nat) : clamp nRegs start count ≤ 127 := by
  have h := clamp_eq nRegs start count
  omega

/-- A clamped count above zero stays in the store exactly when its start is in the store (R119, R129). -/
theorem clamp_fits_iff (nRegs start count : Nat) :
    (clamp nRegs start count = 0 ∨ start + clamp nRegs start count ≤ nRegs) ↔ (start < nRegs ∨ count = 0) := by
  have h := clamp_eq nRegs start count
  omega

/-- A read response has 5 bytes and two for each register (R56). -/
theorem readResponse_length (addr func : Byte) (vals : List Word) :
    (readResponse addr func vals).length = 5 + 2 * vals.length := by
  simp only [readResponse, withCrc_length, List.length_cons, flatMap_beBytes_length]
  omega

/-- A write-multiple response has 8 bytes (R58). -/
theorem writeResponse_length (addr func : Byte) (start : Word) (count : Nat) :
    (writeResponse addr func start count).length = 8 := by
  simp [writeResponse, withCrc_length, beBytes]

/-- An exception response has 5 bytes (R59). -/
theorem exceptionResponse_length (addr func : Byte) : (exceptionResponse addr func).length = 5 := by
  simp [exceptionResponse, withCrc_length]

end Sys2Proof.Machine
end

