-- ==== Sys2Proof/Laws/PerInstr.lean ====
section
/-! SUPPORT. Facts proved once per instruction: the shape of its encoded request frame. -/

namespace Sys2Proof.Laws.Encoding

open Sys2Proof Sys2Proof.Machine

/-- The well-formed frame length of an instruction's request format: 8 for Q-RD and Q-WS, 9 and two for each value
for Q-WM, 4 for a Q-ANY frame with an empty payload (R52 to R55). -/
def frameLength : Instr → Nat
  | .rdco => 4
  | .rddi => 4
  | .rdhr _ _ => 8
  | .rdir _ _ => 8
  | .wrsc => 4
  | .wrsr _ _ => 8
  | .wrmc => 4
  | .wrmr _ _ _ vals => 9 + 2 * vals.length
  | .other _ => 4

/-- The frame of a well-formed instruction has its format's length, at least the four bytes the decoder asks for and
at most 263, starts with the station address, and has the function code at offset 1 (R51 to R55). -/
def Statement (i : Instr) : Prop :=
  i.wellFormed = true → ∀ addr : Byte,
    (encode addr i).length = frameLength i ∧ 4 ≤ frameLength i ∧ frameLength i ≤ 263 ∧
    (encode addr i)[0]? = some addr ∧ (encode addr i)[1]? = some i.opcode

theorem rdco : Statement .rdco := by
  simp [Statement, frameLength, encode, withCrc, crcBytes, Instr.opcode, Instr.payload]

theorem rddi : Statement .rddi := by
  simp [Statement, frameLength, encode, withCrc, crcBytes, Instr.opcode, Instr.payload]

theorem rdhr (start count : Word) : Statement (.rdhr start count) := by
  simp [Statement, frameLength, encode, withCrc, crcBytes, Instr.opcode, Instr.payload, beBytes]

theorem rdir (start count : Word) : Statement (.rdir start count) := by
  simp [Statement, frameLength, encode, withCrc, crcBytes, Instr.opcode, Instr.payload, beBytes]

theorem wrsc : Statement .wrsc := by
  simp [Statement, frameLength, encode, withCrc, crcBytes, Instr.opcode, Instr.payload]

theorem wrsr (reg val : Word) : Statement (.wrsr reg val) := by
  simp [Statement, frameLength, encode, withCrc, crcBytes, Instr.opcode, Instr.payload, beBytes]

theorem wrmc : Statement .wrmc := by
  simp [Statement, frameLength, encode, withCrc, crcBytes, Instr.opcode, Instr.payload]

theorem wrmr (start count : Word) (bytecount : Byte) (vals : List Word) :
    Statement (.wrmr start count bytecount vals) := by
  intro hw addr
  have hlen : vals.length = min count.toNat Config.countMax := of_decide_eq_true hw
  have hmax : Config.countMax = 127 := rfl
  refine ⟨?_, ?_, ?_, rfl, rfl⟩
  · simp only [encode, withCrc_length, frameLength, Instr.payload, beBytes, List.length_cons, List.length_append,
      List.length_nil, flatMap_beBytes_length]
    omega
  · simp only [frameLength]
    omega
  · simp only [frameLength]
    omega

theorem other (func : Byte) : Statement (.other func) := by
  simp [Statement, frameLength, encode, withCrc, crcBytes, Instr.opcode, Instr.payload]

end Sys2Proof.Laws.Encoding
end

