-- ==== Sys2Proof/Tests/Slice0.lean ====
section
/-! SUPPORT. The model's own tests. Every expected value comes from the spec (the rule or vector is named) or from hand
calculation on it; the witnesses show that the hypotheses of each obligation can be met. -/

namespace Sys2Proof.Tests

open Sys2Proof Sys2Proof.Machine

/-! Helpers: small states around State.reset (addr 0x11, N_REGS 1000, INIT_BASE 4000, thresh 3). -/

/-- The next state of an outcome. -/
def nextOf : Host.Outcome State Fault Refusal → Option State
  | .next t => some t
  | .fault _ => none
  | .refused _ => none

theorem eq_next {o : Host.Outcome State Fault Refusal} {t : State} (h : nextOf o = some t) : o = .next t := by
  cases o <;> simp_all [nextOf]

/-- A frame stands in the buffer, its expiry is pending, and its Decode is next. -/
def atDecode (frame : List Byte) : State :=
  { State.reset with buf := frame, tmrSt := .expired, agenda := [.decode [] none] }

/-- A scheduled event in the reset state. -/
def atEvent (e : Event) : State := { State.reset with agenda := [e] }

/-- A frame of one byte is being received. -/
def counting (cnt : Nat) : State :=
  { State.reset with buf := [0x11], tmrSt := .counting, tmrCnt := cnt, agenda := [.tick] }

/-- What a Decode of this frame sends, from the reset registers. -/
def sent (frame : List Byte) : Option (List TxItem) := (nextOf (step (atDecode frame))).map (·.tx)

/-- What register `i` holds after a Decode of this frame. -/
def regAfter (frame : List Byte) (i : Nat) : Option Word := (nextOf (step (atDecode frame))).map (·.regAt i)

/-- The items of one bracketed response. -/
def bracket (bytes : List Byte) : List TxItem := .dirTx :: (bytes.map .byte ++ [.dirRx])

/-! WellFormed: an ill-formed term for each check is refused. -/

/-- R143: a named code is not OTHER. -/
theorem test_wellFormed_other_named : (Instr.other 0x03).wellFormed = false := by decide

/-- R54: one value for each register the count names. -/
theorem test_wellFormed_wrmr_short : (Instr.wrmr 0 2 4 [0x1234]).wellFormed = false := by decide

set_option maxRecDepth 4000 in
/-- R130: never more than 127 values. -/
theorem test_wellFormed_wrmr_long : (Instr.wrmr 0 128 0 (List.replicate 128 0)).wellFormed = false := by decide

/-! Decoding: every constructor, by a frame of the spec. -/

/-- R139. -/
theorem test_decode_rdco :
    decodeFrame (fun _ => 0) 0x11 [0x11, 0x01, 0x00, 0x00, 0x00, 0x08, 0x3F, 0x5C] = .instr .rdco := by decide

/-- R140. -/
theorem test_decode_rddi : decodeFrame (fun _ => 0) 0x11 [0x11, 0x02, 0x8C, 0x21] = .instr .rddi := by decide

/-- R120: start 990, count 20. -/
theorem test_decode_rdhr :
    decodeFrame (fun _ => 0) 0x11 [0x11, 0x03, 0x03, 0xDE, 0x00, 0x14, 0x27, 0x2B] = .instr (.rdhr 990 20) := by decide

/-- R122. -/
theorem test_decode_rdir :
    decodeFrame (fun _ => 0) 0x11 [0x11, 0x04, 0x00, 0x6B, 0x00, 0x03, 0xC3, 0x47] = .instr (.rdir 107 3) := by decide

/-- R141. -/
theorem test_decode_wrsc :
    decodeFrame (fun _ => 0) 0x11 [0x11, 0x05, 0x00, 0xAC, 0xFF, 0x00, 0x4E, 0x8B] = .instr .wrsc := by decide

/-- R128 (b): the value field is taken from the CRC bytes of a short frame. -/
theorem test_decode_wrsr :
    decodeFrame (fun _ => 0) 0x11 [0x11, 0x06, 0x00, 0x05, 0x25, 0x1A] = .instr (.wrsr 5 0x251A) := by decide

/-- R142. -/
theorem test_decode_wrmc :
    decodeFrame (fun _ => 0) 0x11 [0x11, 0x0F, 0x00, 0x00, 0x00, 0x08, 0x56, 0x9D] = .instr .wrmc := by decide

/-- R133: the byte count 0x77 is accepted. -/
theorem test_decode_wrmr :
    decodeFrame (fun _ => 0) 0x11 [0x11, 0x10, 0x00, 0x09, 0x00, 0x01, 0x77, 0xCA, 0xFE, 0xAD, 0xF3] =
      .instr (.wrmr 9 1 0x77 [0xCAFE]) := by decide

/-- R145 (c): a code with the exception bit set is OTHER. -/
theorem test_decode_other :
    decodeFrame (fun _ => 0) 0x11 [0x11, 0x90, 0x00, 0x00, 0x00, 0x01, 0x02, 0x87] = .instr (.other 0x90) := by decide

/-- R110: an operand byte the frame does not reach is a draw. -/
theorem test_decode_draws :
    decodeFrame (fun k => BitVec.ofNat 8 k) 0x11 [0x11, 0x03, 0x4D, 0xE1] = .instr (.rdhr 0x4DE1 0x0405) := by decide

/-- R107: the valid frame of station 0x12, and the valid frame for address 0. -/
theorem test_decode_foreign :
    decodeFrame (fun _ => 0) 0x11 [0x12, 0x03, 0x00, 0x6B, 0x00, 0x03, 0x76, 0xB4] = .reject .addrMismatch ∧
    decodeFrame (fun _ => 0) 0x11 [0x00, 0x03, 0x00, 0x6B, 0x00, 0x03, 0x75, 0xC6] = .reject .addrMismatch := by decide

/-- R106: three bytes are too few. -/
theorem test_decode_short : decodeFrame (fun _ => 0) 0x11 [0x11, 0x03, 0x00] = .reject .shortFrame := by decide

/-- R108: one bit flipped in the payload. -/
theorem test_decode_flipped :
    decodeFrame (fun _ => 0) 0x11 [0x11, 0x03, 0x00, 0x6A, 0x00, 0x03, 0x76, 0x87] = .reject .crcFail := by decide

/-- R119, R129: the encoder writes the spec's frames. -/
theorem test_encode :
    encode 0x11 (.rdhr 0x6B 3) = [0x11, 0x03, 0x00, 0x6B, 0x00, 0x03, 0x76, 0x87] ∧
    encode 0x11 (.wrmr 2 2 4 [0x1234, 0xABCD]) =
      [0x11, 0x10, 0x00, 0x02, 0x00, 0x02, 0x04, 0x12, 0x34, 0xAB, 0xCD, 0xDC, 0xA5] := by decide

/-- The opcode table's word of RDHR, of WRMR and of an OTHER code. -/
theorem test_decodeTableWord :
    decodeTableWord 8 0x03 = some (.rdhr 0 0) ∧ decodeTableWord 8 0x10 = some (.wrmr 0 0 0 []) ∧
    decodeTableWord 8 0x07 = some (.other 0x07) := by decide

/-- The placed word runs as the very next step: RDCO answers its exception (R139). -/
theorem test_withFetchWord :
    (nextOf (step (State.reset.withFetchWord 8 0x01))).map (·.tx) = some (bracket [0x11, 0x81, 0x01, 0x80, 0x55]) := by
  decide

/-! The CRC engine. -/

/-- R71: the worked example and the empty sequence. -/
theorem test_crc16 : crc16 [0x11, 0x03, 0x00, 0x6B, 0x00, 0x03] = 0x8776 ∧ crc16 [] = 0xFFFF := by decide

/-- R74: the example of appending. -/
theorem test_withCrc : withCrc [0x11, 0x81, 0x01] = [0x11, 0x81, 0x01, 0x80, 0x55] := by decide

/-- R70: entries at the corners of the table and in its middle. -/
theorem test_crcTab : crcTab 0x00 = 0 ∧ crcTab 0x4F = 0xF441 ∧ crcTab 0x80 = 0xA001 ∧ crcTab 0xFF = 0x4040 := by decide

/-! One step per instruction. -/

/-- R139. -/
theorem test_rdco : sent [0x11, 0x01, 0xCC, 0x20] = some (bracket [0x11, 0x81, 0x01, 0x80, 0x55]) := by decide

/-- R140. -/
theorem test_rddi :
    sent [0x11, 0x02, 0x00, 0x00, 0x00, 0x08, 0x7B, 0x5C] = some (bracket [0x11, 0x82, 0x01, 0x80, 0xA5]) := by decide

/-- R119, the scenario of the source. -/
theorem test_rdhr : sent [0x11, 0x03, 0x00, 0x6B, 0x00, 0x03, 0x76, 0x87] =
    some (bracket [0x11, 0x03, 0x06, 0x10, 0x0B, 0x10, 0x0C, 0x10, 0x0D, 0x43, 0x22]) := by decide

/-- R126: start 999, count 2 is clamped to the last register. -/
theorem test_rdhr_clamp : sent [0x11, 0x03, 0x03, 0xE7, 0x00, 0x02, 0x76, 0xE8] =
    some (bracket [0x11, 0x03, 0x02, 0x13, 0x87, 0x34, 0xD5]) := by decide

/-- R122. -/
theorem test_rdir : sent [0x11, 0x04, 0x00, 0x6B, 0x00, 0x03, 0xC3, 0x47] =
    some (bracket [0x11, 0x04, 0x06, 0x10, 0x0B, 0x10, 0x0C, 0x10, 0x0D, 0x02, 0xC4]) := by decide

/-- R126: register 0 is read like any other. -/
theorem test_rdir_zero : sent [0x11, 0x04, 0x00, 0x00, 0x00, 0x01, 0x33, 0x5A] =
    some (bracket [0x11, 0x04, 0x02, 0x0F, 0xA0, 0x7D, 0x7B]) := by decide

/-- R141. -/
theorem test_wrsc : sent [0x11, 0x05, 0x00, 0x00, 0x00, 0x08, 0xCE, 0x9C] =
    some (bracket [0x11, 0x85, 0x01, 0x82, 0x95]) := by decide

/-- R128 (a): the echo is the whole frame, two trailing zeros included, and the register is written. -/
theorem test_wrsr :
    sent [0x11, 0x06, 0x00, 0x07, 0xBE, 0xEF, 0x0A, 0xB7, 0x00, 0x00] =
      some (bracket [0x11, 0x06, 0x00, 0x07, 0xBE, 0xEF, 0x0A, 0xB7, 0x00, 0x00]) ∧
    regAfter [0x11, 0x06, 0x00, 0x07, 0xBE, 0xEF, 0x0A, 0xB7, 0x00, 0x00] 7 = some 0xBEEF := by decide

/-- R128 (e): N_REGS itself is the smallest faulting index. -/
theorem test_wrsr_fault :
    (nextOf (step (atDecode [0x11, 0x06, 0x03, 0xE8, 0x00, 0x01, 0xCA, 0xEA]))).map (·.fault) = some true := by decide

/-- R142. -/
theorem test_wrmc : sent [0x11, 0x0F, 0x00, 0x13, 0x00, 0x0A, 0x02, 0xCD, 0x01, 0xBF, 0x0B] =
    some (bracket [0x11, 0x8F, 0x01, 0x84, 0x35]) := by decide

/-- R130: start 998, count 5 writes two registers and says so. -/
theorem test_wrmr_clamp :
    sent [0x11, 0x10, 0x03, 0xE6, 0x00, 0x05, 0x0A, 0x00, 0x01, 0x00, 0x02, 0x00, 0x03, 0x00, 0x04, 0x00, 0x05,
      0x43, 0x88] = some (bracket [0x11, 0x10, 0x03, 0xE6, 0x00, 0x02, 0xA2, 0xEB]) := by decide

/-- R134: the second value is the frame's own CRC bytes; the register after it keeps its start-up value. -/
theorem test_wrmr_short :
    regAfter [0x11, 0x10, 0x00, 0x09, 0x00, 0x02, 0x04, 0xCA, 0xFE, 0x5C, 0x6C] 10 = some 0x5C6C ∧
    regAfter [0x11, 0x10, 0x00, 0x09, 0x00, 0x02, 0x04, 0xCA, 0xFE, 0x5C, 0x6C] 11 = some 4011 := by decide

/-- R143: a valid frame with an unknown code sends nothing and ends in Idle. -/
theorem test_other :
    sent [0x11, 0x16, 0x00, 0x00, 0x00, 0x01, 0x8B, 0x59] = some [] ∧
    (nextOf (step (atDecode [0x11, 0x16, 0x00, 0x00, 0x00, 0x01, 0x8B, 0x59]))).map (·.tmrSt) = some .idle := by decide

/-! Timer, intake, exceptions, reset. -/

/-- R85: the third Tick after a rearm expires a threshold of 3. -/
theorem test_tick_expires :
    (nextOf (step (counting 2))).map (fun t => (t.tmrSt, t.tmrCnt)) = some (.expired, 3) := by decide

/-- R96: the example of the first byte. -/
theorem test_intake :
    (nextOf (step { State.reset with rxq := [0x11] })).map (fun t => (t.buf, t.rxq, t.tmrSt, t.tmrCnt)) =
      some ([0x11], [], .counting, 0) := by decide

/-- R168, order B: a byte pending at the expiry is discarded by the Decode. -/
theorem test_order_b :
    (nextOf (step { atDecode [0x11, 0x16, 0x00, 0x00, 0x00, 0x01, 0x8B, 0x59] with rxq := [0x11] })).map
      (fun t => (t.rxq, t.buf, t.rxie)) = some ([], [], true) := by decide

/-- R163: in the faulted state a step that is no Reset stops. -/
theorem test_fault_stops : step { State.reset with fault := true } = .fault .storeIndexOutOfRange := by rfl

/-- R163, R182: Reset leaves the faulted state, and a written register holds its start-up value again. -/
theorem test_reset_leaves_fault :
    (nextOf (step { State.reset with fault := true, hreg := [(1, 42)], agenda := [.reset] })).map
      (fun t => (t.fault, t.regAt 1)) = some (false, 4001) := by decide

/-- R90: 4011 ticks of one microsecond at 9600 baud. -/
theorem test_threshTicks : Config.threshTicksFor 9600 1000 = 4011 := by decide

/-! Witnesses: the hypotheses of each obligation are met, clause by clause, at boundary values. -/

set_option maxRecDepth 4000 in
theorem witness_DecodeOfEncodeIsInstruction :
    (Instr.rdhr 0xFFFF 0xFFFF).wellFormed = true ∧ (Instr.wrmr 0 0 0 []).wellFormed = true ∧
    (Instr.wrmr 0xFFFF 200 0xFF (List.replicate 127 0xFFFF)).wellFormed = true ∧
    (Instr.other 0xFF).wellFormed = true := by decide

theorem witness_DispatchFollowsOpcodeMap :
    ∀ f ∈ [0x01, 0x02, 0x03, 0x04, 0x05, 0x06, 0x0F, 0x10, 0x00],
      4 ≤ (withCrc [0x11, f]).length ∧ (withCrc [0x11, f])[0]? = some 0x11 ∧ crc16 (withCrc [0x11, f]) = 0 ∧
      ((withCrc [0x11, f])[1]?).getD 0 = f := by decide

theorem witness_ValidationTestsInOrder :
    ([0x11, 0x03, 0x00] : List Byte).length < 4 ∧
    (4 ≤ ([0x12, 0x03, 0x00, 0x00] : List Byte).length ∧ ([0x12, 0x03, 0x00, 0x00] : List Byte)[0]? ≠ some 0x11) ∧
    (4 ≤ ([0x11, 0x01, 0xCC, 0x21] : List Byte).length ∧ ([0x11, 0x01, 0xCC, 0x21] : List Byte)[0]? = some 0x11 ∧
      crc16 [0x11, 0x01, 0xCC, 0x21] ≠ 0) ∧
    (4 ≤ ([0x11, 0x01, 0xCC, 0x20] : List Byte).length ∧ ([0x11, 0x01, 0xCC, 0x20] : List Byte)[0]? = some 0x11 ∧
      crc16 [0x11, 0x01, 0xCC, 0x20] = 0) := by decide

theorem witness_DecodedInstructionIsWellFormed :
    decodeFrame (fun _ => 0) 0x11 [0x11, 0x07, 0x4C, 0x22] = .instr (.other 0x07) := by decide

theorem witness_ResidueTestIsCrcComparison :
    4 ≤ ([0x11, 0x01, 0xCC, 0x20] : List Byte).length ∧ ([0x11, 0x01, 0xCC, 0x20] : List Byte)[0]? = some 0x11 := by
  decide

theorem witness_TrailingZerosKeepResidue : crc16 [0x11, 0x01, 0xCC, 0x20] = 0 := by decide

theorem witness_SingleBitFlipIsDetected :
    (0 < 8 ∧ crc16 ([] ++ 0x11 :: [0x01, 0xCC, 0x20]) = 0) ∧
    (7 < 8 ∧ crc16 ([0x11, 0x01, 0xCC] ++ 0x20 :: []) = 0) := by decide

theorem witness_TickCountsOnlyInCounting :
    ((counting 2).eventNext .tick [] ∧ (counting 2).tmrSt = .counting ∧
      (counting 2).tmrCnt + 1 = (counting 2).thresh) ∧
    ((counting 0).eventNext .tick [] ∧ (counting 0).tmrSt = .counting ∧
      (counting 0).tmrCnt + 1 ≠ (counting 0).thresh) ∧
    ((atEvent .tick).eventNext .tick [] ∧ (atEvent .tick).tmrSt ≠ .counting) := by decide

theorem witness_ExpiryAtThresholdTick : ∀ n ∈ [1, 3],
    let s := { counting 0 with agenda := List.replicate n .tick }
    s.fault = false ∧ s.tmrSt = .counting ∧ s.tmrCnt = 0 ∧ s.rxq = [] ∧ n ≤ s.thresh ∧ 1 ≤ n ∧
    s.agenda = List.replicate n .tick := by decide

/-- An idle and a counting timer, an empty and a full buffer. -/
theorem witness_IntakeReadsRearmsAppends :
    ∀ s ∈ [{ State.reset with rxq := [0x11] },
        { counting 2 with rxq := [0x11] },
        { counting 2 with rxq := [0x11], buf := List.replicate 256 0x11, agenda := [.rxIntake] }],
      s.fault = false ∧ s.rxq = 0x11 :: [] ∧ s.rxie = true ∧ s.tmrSt ≠ .expired ∧
      s.agenda.head? ≠ some .reset := by decide

theorem witness_IntakeWhileExpiredKeepsExpiry :
    let s := { atDecode [0x11] with rxq := [0x22], agenda := [.rxIntake] }
    s.fault = false ∧ s.rxq = 0x22 :: [] ∧ s.rxie = true ∧ s.tmrSt = .expired ∧ s.agenda = .rxIntake :: [] := by decide

/-- An empty and a full receive register. -/
theorem witness_ArrivalQueuesOrIsLost :
    (atEvent (.rxArrive 0x11)).eventNext (.rxArrive 0x11) [] ∧
    ({ atDecode [0x11] with rxq := [0x22], agenda := [.rxArrive 0x33] } : State).eventNext (.rxArrive 0x33) [] := by
  decide

theorem witness_StepRunsDecodedInstruction :
    (atDecode [0x11, 0x01, 0xCC, 0x20]).decodeNext [] none [] ∧
    decodeFrame (beginEvent [] (atDecode [0x11, 0x01, 0xCC, 0x20])).drawAt (atDecode [0x11, 0x01, 0xCC, 0x20]).addr
      (atDecode [0x11, 0x01, 0xCC, 0x20]).buf = .instr .rdco := by decide

/-- Each of the four silent cases, and one that is not; a silent and an answered frame under a stalled peripheral. -/
theorem witness_SilentDecodesAndOnlyThese :
    ((atDecode [0x11, 0x03, 0x00]).decodeNext [] none [] ∧ (atDecode [0x11, 0x03, 0x00]).len < 4) ∧
    ((atDecode [0x12, 0x03, 0, 0]).decodeNext [] none [] ∧ (atDecode [0x12, 0x03, 0, 0]).buf[0]? ≠ some 0x11) ∧
    ((atDecode [0x11, 0x01, 0xCC, 0x21]).decodeNext [] none [] ∧ crc16 (atDecode [0x11, 0x01, 0xCC, 0x21]).buf ≠ 0) ∧
    ((atDecode [0x11, 0x07, 0x4C, 0x22]).decodeNext [] none [] ∧
      (atDecode [0x11, 0x07, 0x4C, 0x22]).buf[1]? = some 0x07 ∧
      (0x07 : Byte) ∉ [0x01, 0x02, 0x03, 0x04, 0x05, 0x06, 0x0F, 0x10]) ∧
    ((atDecode [0x11, 0x01, 0xCC, 0x20]).decodeNext [] none [] ∧ ¬ (atDecode [0x11, 0x01, 0xCC, 0x20]).len < 4 ∧
      (atDecode [0x11, 0x01, 0xCC, 0x20]).buf[0]? = some 0x11 ∧ crc16 (atDecode [0x11, 0x01, 0xCC, 0x20]).buf = 0 ∧
      (atDecode [0x11, 0x01, 0xCC, 0x20]).buf[1]? = some 0x01) ∧
    ({ atDecode [0x11] with agenda := [.decode [0x22] (some 0)] } : State).decodeNext [0x22] (some 0) [] ∧
    ({ atDecode [0x11, 0x01, 0xCC, 0x20] with agenda := [.decode [] (some 0)] } : State).decodeNext [] (some 0) [] := by
  decide

theorem witness_DecodeEndsReady :
    let s := { atDecode [0x11, 0x01, 0xCC, 0x20] with rxq := [0x11], agenda := [.decode [0x22] none] }
    s.decodeNext [0x22] none [] ∧ s.rxq.length ≤ s.params.rxDepth := by decide

/-- A Decode of an instruction and of a rejected frame: both clauses about the store. -/
theorem witness_DecodeEndsReady_store :
    fetch (beginEvent [] (atDecode [0x11])) = .reject .shortFrame ∧
    fetch (beginEvent [] (atDecode [0x11, 0x07, 0x4C, 0x22])) = .instr (.other 0x07) ∧
    exec (.other 0x07) (enterDecode none (beginEvent [] (atDecode [0x11, 0x07, 0x4C, 0x22]))) =
      .next (enterDecode none (beginEvent [] (atDecode [0x11, 0x07, 0x4C, 0x22]))) := ⟨by decide, by decide, rfl⟩

theorem witness_EveryResponseHasResidueZero :
    (atDecode [0x11, 0x01, 0xCC, 0x20]).decodeNext [] none [] ∧
    (atDecode [0x11, 0x01, 0xCC, 0x20]).len ≤ (atDecode [0x11, 0x01, 0xCC, 0x20]).params.frameCap := by decide

theorem witness_ArrivalsDuringDecodeHaveNoEffect :
    (atDecode [0x11, 0x01, 0xCC, 0x20]).params.rxDepth = 1 ∧
    (atDecode [0x11, 0x01, 0xCC, 0x20]).rxq.length ≤ 1 ∧
    (atDecode [0x11, 0x01, 0xCC, 0x20]).decodeNext [] none [] := by decide

/-- R120: start at N_REGS; start 873 with 127 registers; start 874, the first that is clamped. -/
theorem witness_ClampCases :
    (1000 ≤ 1000) ∧ (873 < 1000 ∧ 873 + min 127 127 ≤ 1000) ∧ (874 < 1000 ∧ 1000 < 874 + min 127 127) := by decide

/-- The premises of the command results: the last register, a count of zero at N_REGS, the first faulting start. -/
theorem witness_ReadHoldingRegistersResult :
    ((atDecode [0x11]).live ∧ (atDecode [0x11]).buf.head? = some 0x11) ∧
    (999 : Word).toNat < (atDecode [0x11]).params.nRegs ∧ (0 : Word) = 0 ∧
    ((atDecode [0x11]).params.nRegs ≤ (1000 : Word).toNat ∧ (1 : Word) ≠ 0) := by decide

theorem witness_ReadInputRegistersResult :
    ((atDecode [0x11]).live ∧ (atDecode [0x11]).buf.head? = some 0x11) ∧
    (0 : Word).toNat < (atDecode [0x11]).params.nRegs ∧
    ((atDecode [0x11]).params.nRegs ≤ (0xFFFF : Word).toNat ∧ (0xFFFF : Word) ≠ 0) := by decide

theorem witness_ReadOfZeroRegistersIsAnswered :
    (atDecode [0x11]).live ∧ (atDecode [0x11]).buf.head? = some 0x11 := by decide

theorem witness_WriteSingleResult :
    (Memory.wf (atDecode [0x11]).params.initBase (atDecode [0x11]).params.nRegs (atDecode [0x11]).hreg ∧
      (atDecode [0x11]).live ∧ (atDecode [0x11]).buf ≠ []) ∧
    (999 : Word).toNat < (atDecode [0x11]).params.nRegs ∧
    (atDecode [0x11]).params.nRegs ≤ (1000 : Word).toNat := by decide

/-- In range, count zero out of range, and the fault. -/
theorem witness_WriteMultipleResult :
    let s := { atDecode [0x11] with hreg := [(1, 42), (999, 0)] }
    (Memory.wf s.params.initBase s.params.nRegs s.hreg ∧ s.live ∧ s.buf.head? = some 0x11) ∧
    ((Instr.wrmr 998 5 10 [1, 2, 3, 4, 5]).wellFormed = true ∧ (998 : Word).toNat < s.params.nRegs) ∧
    ((Instr.wrmr 1000 0 0 []).wellFormed = true ∧ (0 : Word) = 0) ∧
    ((Instr.wrmr 1000 1 2 [0]).wellFormed = true ∧ s.params.nRegs ≤ (1000 : Word).toNat ∧ (1 : Word) ≠ 0) := by decide

/-- The last register by WRSR; the last of two registers by WRMR; the state the write leaves meets the premises of the
reading. -/
theorem witness_WriteThenReadReturnsValue :
    let s := atDecode [0x11]
    (Memory.wf s.params.initBase s.params.nRegs s.hreg ∧ s.live ∧ s.buf ≠ [] ∧ (999 : Word).toNat < s.params.nRegs) ∧
    ((Instr.wrmr 998 5 10 [1, 2, 3, 4, 5]).wellFormed = true ∧ (998 : Word).toNat < s.params.nRegs ∧
      (998 : Word).toNat ≤ (999 : Word).toNat ∧
      (999 : Word).toNat < (998 : Word).toNat + clamp s.params.nRegs (998 : Word).toNat (5 : Word).toNat ∧
      ([1, 2, 3, 4, 5] : List Word)[(999 : Word).toNat - (998 : Word).toNat]? = some 2) ∧
    (∃ t, exec (.wrsr 999 7) s = .next t ∧ t.params = t.params ∧ t.regAt 999 = t.regAt 999 ∧ t.live ∧
      t.buf.head? = some 0x11) := ⟨by decide, by decide, _, rfl, by decide⟩

theorem witness_RepeatedWriteIsIdempotent :
    (Instr.wrmr 2 2 4 [0x1234, 0xABCD]).wellFormed = true ∧
    Memory.wf (atDecode [0x11]).params.initBase (atDecode [0x11]).params.nRegs (atDecode [0x11]).hreg ∧
    (atDecode [0x11]).live ∧ (atDecode [0x11]).buf ≠ [] ∧
    (2 : Word).toNat < (atDecode [0x11]).params.nRegs := by decide

theorem witness_IllegalFunctionResult :
    (atDecode [0x11]).live ∧ (atDecode [0x11]).buf.head? = some 0x11 := by decide

theorem witness_OnlyStoreAccessesFault : (Instr.wrmr 1000 1 2 [0]).wellFormed = true := by decide

theorem witness_TransmitSendsEveryByte : State.reset.live ∧ ([0x11] : List Byte) ≠ [] := by decide

/-- A full and an empty data register: no answer at all, the last stall (every byte written, no switch back), and just
enough answers. -/
theorem witness_TransmitWithoutAnswersIsStuck :
    ∀ c ∈ [(false, 0), (false, 2), (false, 3), (true, 0), (true, 1), (true, 2)],
      let s := { State.reset with stall := some c.2, dre := c.1 }
      let waits := if s.dre then ([0x11, 0x22] : List Byte).length else ([0x11, 0x22] : List Byte).length + 1
      s.stall = some c.2 ∧ ([0x11, 0x22] : List Byte) ≠ [] ∧
      (c ∈ [(false, 0), (false, 2), (true, 0), (true, 1)] → c.2 < waits) ∧
      (c ∈ [(false, 3), (true, 2)] → waits ≤ c.2) := by decide

/-- A stuck transmitter and a byte that arrives. -/
theorem witness_OnlyResetRecoversStuckTransmitter :
    let s := { atDecode [0x11] with dir := .tx, rxie := false, agenda := [.rxArrive 0x22] }
    s.fault = false ∧ s.Stuck ∧ step s = .next { s with rxq := [0x22], agenda := [], draws := 1 } ∧
    s.agenda.head? ≠ some .reset := ⟨by decide, by decide, eq_next (by decide), by decide⟩

/-- The Fault of a Decode, the faulted state with an empty agenda, and with a Reset scheduled. -/
theorem witness_FaultIsTakenAndOnlyResetLeavesIt :
    let s := atDecode [0x11, 0x06, 0x03, 0xE8, 0x00, 0x01, 0xCA, 0xEA]
    (s.decodeNext [] none [] ∧ fetch (beginEvent [] s) = .instr (.wrsr 1000 1) ∧
      exec (.wrsr 1000 1) (enterDecode none (beginEvent [] s)) = .fault .storeIndexOutOfRange) ∧
    ({ s with fault := true }.fault = true ∧ { s with fault := true }.agenda.head? ≠ some .reset) ∧
    ({ s with fault := true, agenda := [.reset] }.agenda.head? = some .reset) :=
  ⟨⟨by decide, by decide, by rfl⟩, by decide, by decide⟩

theorem witness_ResetRestoresEveryElement : (atEvent .reset).agenda = .reset :: [] := by decide

/-- The last register and the first index outside. -/
theorem witness_AppAccessesOneRegister :
    (State.reset.dir = .rx ∧ Memory.wf State.reset.params.initBase State.reset.params.nRegs State.reset.hreg) ∧
    ((atEvent (.appReadReg 999)).eventNext (.appReadReg 999) [] ∧ 999 < State.reset.params.nRegs) ∧
    (atEvent (.appWriteReg 999 7)).eventNext (.appWriteReg 999 7) [] ∧
    ((atEvent (.appWriteReg 1000 7)).eventNext (.appWriteReg 1000 7) [] ∧ State.reset.params.nRegs ≤ 1000) := by decide

theorem witness_AppReconfigures :
    (atEvent (.appSetAddr 0)).eventNext (.appSetAddr 0) [] ∧
    ((atEvent (.appSetBaud 1)).eventNext (.appSetBaud 1) [] ∧ (atEvent (.appSetBaud 1)).tmrSt = .idle ∧ 1 ≤ 1) ∧
    (({ counting 0 with agenda := [.appSetBaud 9] } : State).eventNext (.appSetBaud 9) [] ∧
      (counting 0).tmrSt ≠ .idle) := by decide

theorem witness_StepKeepsInvariant :
    (counting 1).Inv ∧ step (counting 1) = .next { counting 2 with agenda := [], draws := 1 } :=
  ⟨by decide, eq_next (by decide)⟩

/-- The smallest and the largest legal parameters. -/
theorem witness_ResetMeetsInvariant :
    ({ nRegs := 1000, frameCap := 256, rxDepth := 1, serverAddr := 1, initBase := 0, threshTicks := 1 } : Params).Legal ∧
    ({ nRegs := 65536, frameCap := 9999, rxDepth := 9, serverAddr := 255, initBase := 0xFFFF, threshTicks := 9 } :
      Params).Legal := by decide

/-- Each way to change a register: a write command, the application, a Reset. -/
theorem witness_OnlyWritersChangeTheStore :
    (∃ t, step (atDecode [0x11, 0x06, 0x00, 0x01, 0x00, 0x2A, 0x5B, 0x45]) = .next t ∧ t.fault = false ∧
      t.regAt 1 ≠ (atDecode [0x11, 0x06, 0x00, 0x01, 0x00, 0x2A, 0x5B, 0x45]).regAt 1) ∧
    (∃ t, step (atEvent (.appWriteReg 1 42)) = .next t ∧ t.fault = false ∧
      t.regAt 1 ≠ (atEvent (.appWriteReg 1 42)).regAt 1) ∧
    (∃ t, step { atEvent .reset with hreg := [(1, 42)] } = .next t ∧ t.fault = false ∧
      t.regAt 1 ≠ ({ atEvent .reset with hreg := [(1, 42)] } : State).regAt 1) :=
  ⟨⟨_, rfl, by decide, by decide⟩, ⟨_, rfl, by decide, by decide⟩, ⟨_, rfl, by decide, by decide⟩⟩

theorem witness_OnlyAppAndResetReconfigure :
    (step (atEvent (.appSetAddr 9)) = .next { State.reset with addr := 9, draws := 1 } ∧
      ({ State.reset with addr := 9, draws := 1 } : State).fault = false ∧ (9 : Byte) ≠ 0x11) ∧
    (step (atEvent (.appSetBaud 9)) = .next { State.reset with thresh := 9, draws := 1 } ∧
      ({ State.reset with thresh := 9, draws := 1 } : State).fault = false ∧ 9 ≠ State.reset.thresh) :=
  ⟨⟨eq_next (by decide), by decide, by decide⟩, eq_next (by decide), by decide, by decide⟩

/-- Each way to change the buffer. -/
theorem witness_OnlyIntakeDecodeResetChangeTheBuffer :
    (∃ t, step { State.reset with rxq := [0x11] } = .next t ∧ t.fault = false ∧ t.buf ≠ []) ∧
    (∃ t, step (atDecode [0x11]) = .next t ∧ t.fault = false ∧ t.buf ≠ [0x11]) ∧
    (∃ t, step { counting 0 with agenda := [.reset] } = .next t ∧ t.fault = false ∧ t.buf ≠ [0x11]) :=
  ⟨⟨_, rfl, by decide, by decide⟩, ⟨_, rfl, by decide, by decide⟩, ⟨_, rfl, by decide, by decide⟩⟩

theorem witness_OnlyDecodeTransmits :
    ∃ t, step (atDecode [0x11, 0x01, 0xCC, 0x20]) = .next t ∧ t.fault = false ∧ t.tx ≠ [] :=
  ⟨_, rfl, by decide, by decide⟩

theorem witness_ParametersNeverChange :
    step (counting 1) = .next { counting 2 with agenda := [], draws := 1 } := eq_next (by decide)

/-- A counting, an expired and an idle timer. -/
theorem witness_SilenceLeadsToQuiescence :
    ∀ s ∈ [{ counting 0 with agenda := [] }, { atDecode [0x11] with agenda := [] }, State.reset],
      s.Inv ∧ s.fault = false ∧ s.dir = .rx ∧ s.rxq = [] ∧ s.agenda = [] := by decide

end Sys2Proof.Tests
end

/-! The parameters along a step (R8, log 4): one lemma per operation that `EventEffect` names, then the events. -/

namespace Sys2Proof.Machine

@[simp] theorem tick_params (s : State) : (tick s).params = s.params := by
  obtain ⟨-, h⟩ | ⟨-, -, h⟩ | ⟨-, -, h⟩ := tick_cases s <;> rw [h]

@[simp] theorem finishDecode_params (arr : List Byte) (s : State) : (finishDecode arr s).params = s.params := by
  rw [finishDecode_eq]
  split <;> rfl

theorem CommandEffect.params_eq {s t : State} (h : CommandEffect s t) : t.params = s.params := by
  rw [h.frame]

/-- A Decode that is silent, one that runs its command and one that faults all keep the parameters, and so does every
other event, Reset included. -/
theorem EventEffect.params_eq {s t : State} {e : Event} (h : EventEffect s t e) : t.params = s.params := by
  cases e with
  | reset => rw [h, resetEvent_params]
  | rxArrive b => rw [h]
  | tick => rw [h, tick_params]
  | rxIntake =>
    obtain ⟨-, b, rest, -, rfl⟩ := h
    rfl
  | decode arr stall =>
    obtain ⟨-, -, ⟨r, -, rfl⟩ | ⟨i, u, -, hu, rfl⟩ | ⟨i, -, -, rfl⟩⟩ := h
    · rw [finishDecode_params, enterDecode_params]
    · rw [finishDecode_params, (exec_effect hu).params_eq, enterDecode_params]
    · rw [raiseFault_params, enterDecode_params]
  | appReadReg i =>
    obtain ⟨-, ⟨-, rfl⟩ | ⟨-, rfl⟩⟩ := h
    · rfl
    · exact raiseFault_params s
  | appWriteReg i v =>
    obtain ⟨-, ⟨-, rfl⟩ | ⟨-, rfl⟩⟩ := h
    · rfl
    · exact raiseFault_params s
  | appSetAddr a => rw [h.right]
  | appSetBaud n =>
    obtain ⟨-, -, -, rfl⟩ := h
    rfl
  | serialStatus dre txc => rw [h.right]

/-- Settles O46: a step is the effect of its next event on the state that begins it, and no effect touches the
parameters. -/
theorem parametersNeverChange : Obligations.ParametersNeverChange := by
  intro s t h
  obtain ⟨-, heffect⟩ := step_effect h
  rw [heffect.params_eq, beginEvent_params]

end Sys2Proof.Machine

/-! The invariant along a step (R32): one lemma per event that touches what `State.Sound` speaks of, then the events. -/

namespace Sys2Proof.Machine

/-- The state after reset is sound for every legal choice of the parameters. -/
theorem State.resetWith_sound {p : Params} (hp : p.Legal) : (State.resetWith p).Sound := by
  obtain ⟨-, -, -, -, -, hthresh⟩ := hp
  exact ⟨Memory.nil_wf _ _, Nat.zero_le _, Nat.zero_le _, hthresh, Nat.zero_le _,
    .inl ⟨rfl, rfl, fun _ => ⟨rfl, rfl⟩, nofun⟩⟩

/-- Nothing that `State.Sound` speaks of differs between the state after `Reset` and `State.resetWith`. -/
theorem resetEvent_sound {s : State} (hp : s.params.Legal) : (resetEvent s).Sound := State.resetWith_sound hp

theorem State.Sound.ready {s : State} (h : s.Sound) (hstuck : ¬ s.Stuck) : s.Ready := by
  obtain ⟨-, -, -, -, -, hmode⟩ := h
  exact hmode.resolve_right hstuck

theorem State.Sound.with_hreg {s : State} (h : s.Sound) {m : Memory}
    (hm : Memory.wf s.params.initBase s.params.nRegs m) : ({ s with hreg := m } : State).Sound := by
  obtain ⟨-, hrest⟩ := h
  exact ⟨hm, hrest⟩

theorem State.receive_sound {s : State} (h : s.Sound) (b : Byte) : (s.receive b).Sound := by
  obtain ⟨hstore, hlen, hcnt, hthresh, hq, hmode⟩ := h
  have hq : (s.receive b).rxq.length ≤ s.params.rxDepth := State.receiveAll_length [b] s hq
  rw [State.receive_eq] at hq ⊢
  exact ⟨hstore, hlen, hcnt, hthresh, hq, hmode⟩

/-- A Tick leaves Counting exactly at the threshold, so a counting timer stays below it (R85, R86). -/
theorem tick_sound {s : State} (h : s.Sound) : (tick s).Sound := by
  have ready (hst : s.tmrSt = .counting) : s.Ready := h.ready fun ⟨_, _, hexp⟩ => by simp [hst] at hexp
  obtain ⟨hstore, hlen, -, hthresh, hq, -⟩ := id h
  obtain ⟨-, ht⟩ | ⟨hst, hcnt, ht⟩ | ⟨hst, hcnt, ht⟩ := tick_cases s <;> rw [ht]
  · exact h
  · obtain ⟨hdir, hrxie, -, -⟩ := ready hst
    exact ⟨hstore, hlen, hcnt.le, hthresh, hq, .inl ⟨hdir, hrxie, nofun, nofun⟩⟩
  · obtain ⟨hdir, hrxie, -, hcounting⟩ := ready hst
    obtain ⟨hbuf, hlt⟩ := hcounting hst
    have hlt : s.tmrCnt + 1 < s.thresh := by omega
    exact ⟨hstore, hlen, hlt.le, hthresh, hq,
      .inl ⟨hdir, hrxie, fun hidle => by simp [hst] at hidle, fun _ => ⟨hbuf, hlt⟩⟩⟩

/-- An intake restarts the count and never leaves the timer Idle; the buffer it leaves is not empty, because a full
buffer of a legal capacity holds a byte already (R95 to R97). -/
theorem EventEffect.intake_sound {s t : State} (h : EventEffect s t .rxIntake) (hcap : 256 ≤ s.params.frameCap)
    (hs : s.Sound) : t.Sound := by
  obtain ⟨hrxie, b, rest, hrxq, rfl⟩ := h
  obtain ⟨hdir, -, -, -⟩ := hs.ready fun ⟨_, hoff, _⟩ => by simp [hrxie] at hoff
  obtain ⟨hstore, hlen, -, hthresh, hq, -⟩ := hs
  have hbuf : (if s.len < s.params.frameCap then s.buf ++ [b] else s.buf).length ≤ s.params.frameCap ∧
      (if s.len < s.params.frameCap then s.buf ++ [b] else s.buf) ≠ [] := by
    split
    · rename_i hroom
      exact ⟨by rwa [List.length_append], by simp⟩
    · rename_i hfull
      exact ⟨hlen, fun hnil => by simp [State.len, hnil] at hfull; omega⟩
  have hst : (if s.tmrSt = .expired then TimerState.expired else .counting) ≠ .idle := by split <;> simp
  have hrest : rest.length ≤ s.params.rxDepth := by
    rw [hrxq, List.length_cons] at hq
    omega
  exact ⟨hstore, hbuf.left, Nat.zero_le _, hthresh, hrest,
    .inl ⟨hdir, hrxie, fun hidle => absurd hidle hst, fun _ => ⟨hbuf.right, hthresh⟩⟩⟩

/-- A command whose transmission completed is followed by the epilogue, which leaves the block ready; one whose
transmission did not leaves it stuck with the expiry uncleared (R117, R152). -/
theorem finishDecode_sound {s u : State} {stall : Option Nat} (arr : List Byte)
    (hu : CommandEffect (enterDecode stall s) u) (hs : s.Sound) (hexp : s.tmrSt = .expired) :
    (finishDecode arr u).Sound := by
  obtain ⟨hstore, hlen, hcnt, hthresh, hq, -⟩ := hs
  have hstore := hu.store hstore
  have hq : ((enterDecode stall s).receiveAll arr).rxq.length ≤ s.params.rxDepth :=
    State.receiveAll_length arr (enterDecode stall s) hq
  rw [finishDecode_effect arr hu]
  cases hdir : u.dir with
  | rx =>
    have hdiscard : ((enterDecode stall s).receiveAll arr).rxq.tail.length ≤ s.params.rxDepth := by
      rw [List.length_tail]
      omega
    exact ⟨hstore, Nat.zero_le _, Nat.zero_le _, hthresh, hdiscard,
      .inl ⟨rfl, rfl, fun _ => ⟨rfl, rfl⟩, nofun⟩⟩
  | tx => exact ⟨hstore, hlen, hcnt, hthresh, hq, .inr ⟨rfl, rfl, hexp⟩⟩

/-- A command that does nothing. -/
theorem CommandEffect.refl (s : State) : CommandEffect s s := ⟨rfl, id, .inl ⟨rfl, rfl⟩⟩

/-- A Decode without a Fault is one command between entry and epilogue: a rejected frame's command does nothing. -/
theorem EventEffect.decode_of_no_fault {s t : State} {arr : List Byte} {stall : Option Nat}
    (h : EventEffect s t (.decode arr stall)) (hf : t.fault = false) :
    ∃ u, t = finishDecode arr u ∧ CommandEffect (enterDecode stall s) u ∧
      (u = enterDecode stall s ∨ ∃ i, fetch s = .instr i ∧ exec i (enterDecode stall s) = .next u) := by
  obtain ⟨-, -, ⟨-, -, rfl⟩ | ⟨i, u, hi, hu, rfl⟩ | ⟨-, -, -, rfl⟩⟩ := h
  · exact ⟨_, rfl, .refl _, .inl rfl⟩
  · exact ⟨u, rfl, exec_effect hu, .inr ⟨i, hi, hu⟩⟩
  · simp at hf

theorem EventEffect.sound {s t : State} {e : Event} (h : EventEffect s t e) (hp : s.params.Legal)
    (hs : s.Sound) (hf : t.fault = false) : t.Sound := by
  cases e with
  | reset =>
    rw [h]
    exact resetEvent_sound hp
  | rxArrive b =>
    rw [h, ← State.receive_eq]
    exact State.receive_sound hs b
  | tick =>
    rw [h]
    exact tick_sound hs
  | rxIntake =>
    obtain ⟨-, -, hcap, -⟩ := hp
    exact h.intake_sound hcap hs
  | decode arr stall =>
    obtain ⟨u, rfl, hu, -⟩ := h.decode_of_no_fault hf
    obtain ⟨-, hexp, -⟩ := h
    exact finishDecode_sound arr hu hs hexp
  | appReadReg i =>
    obtain ⟨-, ⟨-, rfl⟩ | ⟨-, rfl⟩⟩ := h
    · exact hs
    · simp at hf
  | appWriteReg i v =>
    obtain ⟨-, ⟨hi, rfl⟩ | ⟨-, rfl⟩⟩ := h
    · obtain ⟨hstore, -⟩ := id hs
      exact hs.with_hreg (Memory.set_wf v hi hstore)
    · simp at hf
  | appSetAddr a =>
    obtain ⟨-, rfl⟩ := h
    exact hs
  | appSetBaud n =>
    obtain ⟨hdir, hidle, hn, rfl⟩ := h
    obtain ⟨-, hrxie, hready, -⟩ := hs.ready fun ⟨htx, _, _⟩ => by simp [hdir] at htx
    obtain ⟨hstore, hlen, -, -, hq, -⟩ := hs
    obtain ⟨hbuf, hcnt⟩ := hready hidle
    exact ⟨hstore, hlen, hcnt.trans_le (Nat.zero_le n), hn, hq,
      .inl ⟨hdir, hrxie, hready, fun hcounting => by simp [hidle] at hcounting⟩⟩
  | serialStatus dre txc =>
    obtain ⟨-, rfl⟩ := h
    exact hs

/-- Settles O40: a faulted state can only be reset, which makes it sound again; from a sound state every event leads to
a sound one unless it raises a Fault, after which only the parameters are claimed. -/
theorem stepKeepsInvariant : Obligations.StepKeepsInvariant := by
  rintro s t ⟨hlegal, hsound⟩ h
  refine ⟨by rwa [parametersNeverChange s t h], fun hf => ?_⟩
  obtain ⟨hreset, heffect⟩ := step_effect h
  cases hfault : s.fault with
  | true =>
    rw [hreset hfault] at heffect
    rw [heffect]
    exact resetEvent_sound hlegal
  | false => exact heffect.sound hlegal (hsound hfault) hf

/-- Settles O37: each element is the one `State.resetWith` writes, and an unlisted register reads as its start-up
value. -/
theorem resetStateValues : Obligations.ResetStateValues := by
  intro p
  exact ⟨fun k => rfl, rfl, rfl, rfl, rfl, rfl, rfl, rfl, rfl, rfl⟩

/-- Settles O41, by the soundness of the reset state; the default parameters are legal. -/
theorem resetMeetsInvariant : Obligations.ResetMeetsInvariant := by
  have resetWith_inv (p : Params) (hp : p.Legal) : (State.resetWith p).Inv :=
    ⟨hp, fun _ => State.resetWith_sound hp⟩
  exact ⟨resetWith_inv, resetWith_inv _ (by decide)⟩

end Sys2Proof.Machine

/-! Which events change the store, the address, the threshold and the buffer (R16, R17, R22, R23, R101, R118, R138). -/

namespace Sys2Proof.Machine

@[simp] theorem transmit_hreg (resp : List Byte) (s : State) : (transmit resp s).hreg = s.hreg := by
  obtain h | ⟨n, -, h⟩ := transmit_eq resp s <;> rw [h]

theorem readRegisters_hreg {func : Byte} {start count : Word} {s t : State}
    (h : readRegisters func start count s = .next t) : t.hreg = s.hreg := by
  unfold readRegisters at h
  split at h
  · simp at h
  · obtain rfl := Host.Outcome.next.inj h
    exact transmit_hreg _ _

theorem illegalFunction_hreg {func : Byte} {s t : State} (h : illegalFunction func s = .next t) :
    t.hreg = s.hreg := by
  obtain rfl := Host.Outcome.next.inj h
  exact transmit_hreg _ _

/-- The decoder made a write command of the frame: WRSR or WRMR (R138). -/
def IsWriteFrame (d : Decoded) : Prop :=
  (∃ reg val, d = .instr (.wrsr reg val)) ∨
    ∃ start count bytecount vals, d = .instr (.wrmr start count bytecount vals)

/-- Every command but WRSR and WRMR leaves the store as it was (R138). -/
theorem exec_hreg {i : Instr} {s t : State} (h : exec i s = .next t) :
    t.hreg = s.hreg ∨ IsWriteFrame (.instr i) := by
  cases i with
  | rdco => exact .inl (illegalFunction_hreg h)
  | rddi => exact .inl (illegalFunction_hreg h)
  | rdhr start count => exact .inl (readRegisters_hreg h)
  | rdir start count => exact .inl (readRegisters_hreg h)
  | wrsc => exact .inl (illegalFunction_hreg h)
  | wrsr reg val => exact .inr (.inl ⟨reg, val, rfl⟩)
  | wrmc => exact .inl (illegalFunction_hreg h)
  | wrmr start count bytecount vals => exact .inr (.inr ⟨start, count, bytecount, vals, rfl⟩)
  | other func =>
    obtain rfl := Host.Outcome.next.inj h
    exact .inl rfl

/-- What an event without a Fault can change of the store, the server address, the threshold and the buffer: each is
as before, or the event is one of those that may change it. -/
structure EventFrame (s t : State) (e : Event) : Prop where
  hreg : t.hreg = s.hreg ∨ e = .reset ∨ (∃ i v, e = .appWriteReg i v) ∨
    ∃ arr stall, e = .decode arr stall ∧ IsWriteFrame (fetch s)
  addr : t.addr = s.addr ∨ e = .reset ∨ ∃ a, e = .appSetAddr a
  thresh : t.thresh = s.thresh ∨ e = .reset ∨ ∃ n, e = .appSetBaud n
  buf : t.buf = s.buf ∨ (e = .rxIntake ∧ ∃ b, s.rxq.head? = some b ∧ t.buf = s.buf ++ [b]) ∨
    ((∃ arr stall, e = .decode arr stall) ∧ t.buf = []) ∨ (e = .reset ∧ t.buf = [])

/-- A Decode writes the store only by its command and the buffer only by its epilogue (R101, R118, R138). -/
theorem EventEffect.frame_decode {s t : State} {arr : List Byte} {stall : Option Nat}
    (h : EventEffect s t (.decode arr stall)) (hf : t.fault = false) : EventFrame s t (.decode arr stall) := by
  obtain ⟨u, rfl, hu, hcommand⟩ := h.decode_of_no_fault hf
  have hhreg : u.hreg = s.hreg ∨ IsWriteFrame (fetch s) := by
    obtain rfl | ⟨i, hi, hexec⟩ := hcommand
    · exact .inl rfl
    · rw [hi]
      exact exec_hreg (s := enterDecode stall s) hexec
  rw [finishDecode_effect arr hu]
  refine ⟨hhreg.imp_right fun hw => .inr (.inr ⟨arr, stall, rfl, hw⟩), .inl rfl, .inl rfl, ?_⟩
  cases u.dir with
  | rx => exact .inr (.inr (.inl ⟨⟨arr, stall, rfl⟩, rfl⟩))
  | tx => exact .inl rfl

theorem EventEffect.frame {s t : State} {e : Event} (h : EventEffect s t e) (hf : t.fault = false) :
    EventFrame s t e := by
  cases e with
  | reset =>
    obtain rfl := h
    exact ⟨.inr (.inl rfl), .inr (.inl rfl), .inr (.inl rfl), .inr (.inr (.inr ⟨rfl, rfl⟩))⟩
  | rxArrive b =>
    obtain rfl := h
    exact ⟨.inl rfl, .inl rfl, .inl rfl, .inl rfl⟩
  | tick =>
    obtain rfl := h
    obtain ⟨-, ht⟩ | ⟨-, -, ht⟩ | ⟨-, -, ht⟩ := tick_cases s <;> rw [ht] <;>
      exact ⟨.inl rfl, .inl rfl, .inl rfl, .inl rfl⟩
  | rxIntake =>
    obtain ⟨-, b, rest, hrxq, rfl⟩ := h
    refine ⟨.inl rfl, .inl rfl, .inl rfl, ?_⟩
    by_cases hroom : s.len < s.params.frameCap
    · exact .inr (.inl ⟨rfl, b, by rw [hrxq, List.head?_cons], if_pos hroom⟩)
    · exact .inl (if_neg hroom)
  | decode arr stall => exact h.frame_decode hf
  | appReadReg i =>
    obtain ⟨-, ⟨-, rfl⟩ | ⟨-, rfl⟩⟩ := h
    · exact ⟨.inl rfl, .inl rfl, .inl rfl, .inl rfl⟩
    · simp at hf
  | appWriteReg i v =>
    obtain ⟨-, ⟨-, rfl⟩ | ⟨-, rfl⟩⟩ := h
    · exact ⟨.inr (.inr (.inl ⟨i, v, rfl⟩)), .inl rfl, .inl rfl, .inl rfl⟩
    · simp at hf
  | appSetAddr a =>
    obtain ⟨-, rfl⟩ := h
    exact ⟨.inl rfl, .inr (.inr ⟨a, rfl⟩), .inl rfl, .inl rfl⟩
  | appSetBaud n =>
    obtain ⟨-, -, -, rfl⟩ := h
    exact ⟨.inl rfl, .inl rfl, .inr (.inr ⟨n, rfl⟩), .inl rfl⟩
  | serialStatus dre txc =>
    obtain ⟨-, rfl⟩ := h
    exact ⟨.inl rfl, .inl rfl, .inl rfl, .inl rfl⟩

theorem step_frame {s t : State} (h : step s = .next t) (hf : t.fault = false) :
    EventFrame (beginEvent (nextEvent s).2 s) t (nextEvent s).1 := by
  obtain ⟨-, heffect⟩ := step_effect h
  exact heffect.frame hf

/-- Settles O42: with the store and the parameters as before, every register reads as before. -/
theorem onlyWritersChangeTheStore : Obligations.OnlyWritersChangeTheStore := by
  rintro s t h hf ⟨k, hk⟩
  refine (step_frame h hf).hreg.resolve_left fun hhreg => hk ?_
  rw [State.regAt, State.regAt, parametersNeverChange s t h, hhreg, beginEvent_hreg]

/-- Settles O43, by the frame of a step. -/
theorem onlyAppAndResetReconfigure : Obligations.OnlyAppAndResetReconfigure := by
  intro s t h hf
  exact ⟨(step_frame h hf).addr.resolve_left, (step_frame h hf).thresh.resolve_left⟩

/-- Settles O44, by the frame of a step. -/
theorem onlyIntakeDecodeResetChangeTheBuffer : Obligations.OnlyIntakeDecodeResetChangeTheBuffer := by
  intro s t h hf
  exact (step_frame h hf).buf.resolve_left

end Sys2Proof.Machine

/-! Decoding an encoded frame (R51 to R63): its CRC residue is 0, so it passes the three tests, and every operand is
read back from the offset it was written to. -/

namespace Sys2Proof.Machine

/-- A CRC step on the low byte of the CRC itself meets table entry 0. -/
theorem crcStep_lo8 (c : Word) : crcStep c (lo8 c) = c >>> 8 := by simp [crcStep]

/-- The two CRC bytes shift the CRC out of the register, so a closed frame has residue 0 (R75). -/
theorem crc16_withCrc (p : List Byte) : crc16 (withCrc p) = 0 := by
  have hhi (c : Word) : crcStep (c >>> 8) (hi8 c) = c >>> 8 >>> 8 := by
    rw [← lo8_shiftRight_8, crcStep_lo8]
  have hout (c : Word) : c >>> 8 >>> 8 = 0 := by
    rw [← BitVec.shiftRight_add]
    exact BitVec.ushiftRight_eq_zero le_rfl
  rw [withCrc, crc16_append]
  simp only [crcBytes, List.foldl_cons, List.foldl_nil]
  rw [crcStep_lo8, hhi, hout]

end Sys2Proof.Machine

namespace Sys2Proof

open Machine

/-- The shape of an encoded frame, for every instruction (R51 to R55). -/
theorem encode_shape (i : Instr) : Laws.Encoding.Statement i := by
  cases i with
  | rdco => exact Laws.Encoding.rdco
  | rddi => exact Laws.Encoding.rddi
  | rdhr start count => exact Laws.Encoding.rdhr start count
  | rdir start count => exact Laws.Encoding.rdir start count
  | wrsc => exact Laws.Encoding.wrsc
  | wrsr reg val => exact Laws.Encoding.wrsr reg val
  | wrmc => exact Laws.Encoding.wrmc
  | wrmr start count bytecount vals => exact Laws.Encoding.wrmr start count bytecount vals
  | other func => exact Laws.Encoding.other func

/-- The frame of a well-formed instruction passes the decoder's three tests (R106 to R108). -/
theorem decodeFrame_encode (fill : Nat → Byte) (addr : Byte) {i : Instr} (hi : i.wellFormed = true) :
    decodeFrame fill addr (encode addr i) = .instr (dispatchFrame (frameByte fill (encode addr i))) := by
  obtain ⟨hlen, hmin, -, haddr, -⟩ := encode_shape i hi addr
  have hcrc : crc16 (encode addr i) = 0 := crc16_withCrc _
  obtain ⟨hshort, -⟩ | ⟨-, hother, -⟩ | ⟨-, -, hbad, -⟩ | ⟨-, -, -, h⟩ :=
    decodeFrame_cases fill addr (encode addr i)
  · omega
  · exact absurd haddr hother
  · exact absurd hcrc hbad
  · exact h

/-- The values written after the seven bytes before them are the values read from offset 7 on (R54, R129). -/
theorem frameValues_flatMap_beBytes (fill : Nat → Byte) {front : List Byte} (hfront : front.length = 7)
    (vals : List Word) (rear : List Byte) :
    frameValues (frameByte fill (front ++ (vals.flatMap beBytes ++ rear))) vals.length = vals := by
  have hbyte {k : Nat} {b : Byte} (h : (vals.flatMap beBytes)[k]? = some b) :
      frameByte fill (front ++ (vals.flatMap beBytes ++ rear)) (7 + k) = b := by
    obtain ⟨hk, -⟩ := List.getElem?_eq_some_iff.1 h
    rw [frameByte, List.getElem?_append_right (by omega), hfront, Nat.add_sub_cancel_left,
      List.getElem?_append_left hk, h, Option.getD_some]
  refine List.ext_getElem (by simp [frameValues]) fun k _ hk => ?_
  obtain ⟨hhi, hlo⟩ := flatMap_beBytes_getElem? vals k
  rw [List.getElem?_eq_getElem hk, Option.map_some] at hhi hlo
  have hword : frameWord (frameByte fill (front ++ (vals.flatMap beBytes ++ rear))) (7 + 2 * k) = vals[k] := by
    rw [frameWord, Nat.add_assoc, hbyte hhi, hbyte hlo, be16_hi8_lo8]
  simpa [frameValues] using hword

theorem notMem_namedCodes_iff (b : Byte) : b ∉ namedCodes ↔
    ¬b = 0x01 ∧ ¬b = 0x02 ∧ ¬b = 0x03 ∧ ¬b = 0x04 ∧ ¬b = 0x05 ∧ ¬b = 0x06 ∧ ¬b = 0x0F ∧ ¬b = 0x10 := by
  simp only [namedCodes, List.mem_cons, List.not_mem_nil, or_false, not_or]

/-- Any other function code than the eight the opcode map names is passed on (R61, R143). -/
theorem dispatchFrame_of_notMem_namedCodes {B : Nat → Byte} (h : B 1 ∉ namedCodes) :
    dispatchFrame B = .other (B 1) := by
  rw [notMem_namedCodes_iff] at h
  simp only [dispatchFrame, h, if_false]

/-- The dispatch reads from an encoded frame the instruction it stands for: the bytes of a two-word payload are the
halves of its words, and only the values of a write-multiple need an argument of their own (R60, R61). -/
theorem dispatchFrame_encode (fill : Nat → Byte) (addr : Byte) {i : Instr} (hi : i.wellFormed = true) :
    dispatchFrame (frameByte fill (encode addr i)) = i := by
  cases i with
  | rdco => rfl
  | rddi => rfl
  | rdhr start count => exact congrArg₂ Instr.rdhr (be16_hi8_lo8 start) (be16_hi8_lo8 count)
  | rdir start count => exact congrArg₂ Instr.rdir (be16_hi8_lo8 start) (be16_hi8_lo8 count)
  | wrsc => rfl
  | wrsr reg val => exact congrArg₂ Instr.wrsr (be16_hi8_lo8 reg) (be16_hi8_lo8 val)
  | wrmc => rfl
  | wrmr start count bytecount vals =>
    have hlen : vals.length = valueCount count := of_decide_eq_true hi
    have hvals : frameValues (frameByte fill (encode addr (.wrmr start count bytecount vals))) vals.length = vals :=
      frameValues_flatMap_beBytes fill
        (front := [addr, 0x10, hi8 start, lo8 start, hi8 count, lo8 count, bytecount]) rfl vals _
    calc dispatchFrame (frameByte fill (encode addr (.wrmr start count bytecount vals)))
        = .wrmr (be16 (hi8 start) (lo8 start)) (be16 (hi8 count) (lo8 count)) bytecount
            (frameValues (frameByte fill (encode addr (.wrmr start count bytecount vals)))
              (valueCount (be16 (hi8 count) (lo8 count)))) := rfl
      _ = .wrmr start count bytecount vals := by
        rw [be16_hi8_lo8, be16_hi8_lo8, ← hlen, hvals]
  | other func => exact dispatchFrame_of_notMem_namedCodes (of_decide_eq_true hi : func ∉ namedCodes)

/-- Settles O1: an encoded frame passes the three tests, and the dispatch reads its instruction back. -/
theorem decodeOfEncodeIsInstruction : Obligations.DecodeOfEncodeIsInstruction := by
  intro i addr fill hi
  rw [decodeFrame_encode fill addr hi, dispatchFrame_encode fill addr hi]

/-- Each arm of the dispatch gives a well-formed instruction: a write-multiple reads as many values as its count
names, and `other` is left when every named code has been tested (R61, R130, R143). -/
theorem dispatchFrame_wellFormed (B : Nat → Byte) : (dispatchFrame B).wellFormed = true := by
  have hvalues (n : Nat) : (frameValues B n).length = n := by rw [frameValues, List.length_map, List.length_range]
  simp only [dispatchFrame]
  split_ifs with h01 h02 h03 h04 h05 h06 h0F h10
  · rfl
  · rfl
  · rfl
  · rfl
  · rfl
  · rfl
  · rfl
  · exact decide_eq_true (hvalues _)
  · exact decide_eq_true ((notMem_namedCodes_iff _).2 ⟨h01, h02, h03, h04, h05, h06, h0F, h10⟩)

/-- Settles O5: the decoder gives no instruction but the dispatch's. -/
theorem decodedInstructionIsWellFormed : Obligations.DecodedInstructionIsWellFormed := by
  intro fill addr frame i h
  obtain ⟨-, hd⟩ | ⟨-, -, hd⟩ | ⟨-, -, -, hd⟩ | ⟨-, -, -, hd⟩ := decodeFrame_cases fill addr frame <;>
    rw [hd] at h
  · nomatch h
  · nomatch h
  · nomatch h
  · obtain rfl := Decoded.instr.inj h
    exact dispatchFrame_wellFormed _

end Sys2Proof

/-! Which instructions fault (R65, R160): a clamped access leaves the store only from its start. -/

namespace Sys2Proof.Machine

/-- A clamped access leaves the store exactly when its start is outside it and it names a register (R120). -/
theorem State.not_clampedCount_fits_iff (s : State) (start count : Word) :
    ¬ (s.clampedCount start count = 0 ∨ start.toNat + s.clampedCount start count ≤ s.params.nRegs) ↔
      s.params.nRegs ≤ start.toNat ∧ count ≠ 0 := by
  have hzero : count.toNat = 0 ↔ count = 0 := BitVec.toNat_inj (y := 0)
  rw [State.clampedCount, clamp_fits_iff, not_or, Nat.not_lt, hzero]

/-- The clamp takes no more values than a well-formed write-multiple carries (R130). -/
theorem length_take_clampedCount {start count : Word} {bytecount : Byte} {vals : List Word}
    (h : (Instr.wrmr start count bytecount vals).wellFormed = true) (s : State) :
    (vals.take (s.clampedCount start count)).length = s.clampedCount start count := by
  have hlen : vals.length = min count.toNat 127 := of_decide_eq_true h
  have hclamp := clamp_eq s.params.nRegs start.toNat count.toNat
  rw [List.length_take, State.clampedCount]
  omega

theorem readRegisters_fault_iff (func : Byte) (start count : Word) (s : State) :
    readRegisters func start count s = .fault .storeIndexOutOfRange ↔
      s.params.nRegs ≤ start.toNat ∧ count ≠ 0 := by
  rw [← s.not_clampedCount_fits_iff, readRegisters, State.readRegs_eq]
  split_ifs with h <;> simp [h]

theorem execWrsr_fault_iff (reg val : Word) (s : State) :
    execWrsr reg val s = .fault .storeIndexOutOfRange ↔ s.params.nRegs ≤ reg.toNat := by
  rw [execWrsr, State.writeReg]
  split_ifs with h
  · simp [h]
  · simpa using h

theorem execWrmr_fault_iff {start count : Word} {bytecount : Byte} {vals : List Word}
    (h : (Instr.wrmr start count bytecount vals).wellFormed = true) (s : State) :
    execWrmr start count bytecount vals s = .fault .storeIndexOutOfRange ↔
      s.params.nRegs ≤ start.toNat ∧ count ≠ 0 := by
  have hfits := State.writeRegs_isSome (vals.take (s.clampedCount start count)) start.toNat s
  rw [length_take_clampedCount h] at hfits
  rw [← s.not_clampedCount_fits_iff, ← hfits, execWrmr]
  split
  · rename_i hnone
    simp [hnone]
  · rename_i t hsome
    simp [hsome]

theorem illegalFunction_ne_fault (func : Byte) (s : State) (f : Fault) : illegalFunction func s ≠ .fault f := nofun

/-- Settles O31, one command at a time: the exception responses and `other` never fault, the others when their access
leaves the store. -/
theorem onlyStoreAccessesFault : Obligations.OnlyStoreAccessesFault := by
  intro i s hi
  refine ⟨exec_cases i s, ?_⟩
  cases i with
  | rdco => simp [exec, execRdco, illegalFunction_ne_fault]
  | rddi => simp [exec, execRddi, illegalFunction_ne_fault]
  | rdhr start count => simp [exec, execRdhr, readRegisters_fault_iff]
  | rdir start count => simp [exec, execRdir, readRegisters_fault_iff]
  | wrsc => simp [exec, execWrsc, illegalFunction_ne_fault]
  | wrsr reg val => simp [exec, execWrsr_fault_iff]
  | wrmc => simp [exec, execWrmc, illegalFunction_ne_fault]
  | wrmr start count bytecount vals => simp [exec, execWrmr_fault_iff hi]
  | other func => simp [exec, execOther]

end Sys2Proof.Machine

/-! The CRC engine (R70 to R77): the table is eight shift steps on the index, both are linear over XOR, and so the two
operands of a byte step can be told from its result. -/

namespace Sys2Proof.Machine

/-- Settles O6, entry by entry. -/
theorem tableEntriesAreEightShifts : Obligations.TableEntriesAreEightShifts := by
  unfold Obligations.TableEntriesAreEightShifts
  decide

/-- While the low bits are 0, a reflected shift step is a shift: the polynomial does not come in. -/
theorem crcShift_iterate_of_low_bits_zero {w : Word} {n : Nat} (h : ∀ i < n, w.getLsbD i = false) :
    crcShift^[n] w = w >>> n := by
  induction n with
  | zero => simp
  | succ n ih =>
    have hbit : (w >>> n).getLsbD 0 = false := by simpa using h n n.lt_succ_self
    rw [Function.iterate_succ_apply', ih fun i hi => h i (by omega), crcShift, hbit, BitVec.shiftRight_add]
    simp

/-- On a word with low byte 0, eight shift steps move the high byte down. -/
theorem crcShift8_of_lo8_eq_zero {w : Word} (h : lo8 w = 0) : crcShift8 w = w >>> 8 := by
  refine crcShift_iterate_of_low_bits_zero fun i hi => ?_
  have hbit : (lo8 w).getLsbD i = false := by rw [h]; simp
  simpa [lo8, hi] using hbit

@[simp] theorem lo8_setWidth (b : Byte) : lo8 (b.setWidth 16) = b := by
  apply BitVec.eq_of_toNat_eq
  have := b.isLt
  rw [lo8_toNat, BitVec.toNat_setWidth]
  omega

@[simp] theorem hi8_setWidth (b : Byte) : hi8 (b.setWidth 16) = 0#8 := by
  apply BitVec.eq_of_toNat_eq
  have := b.isLt
  rw [hi8_toNat, BitVec.toNat_setWidth, BitVec.toNat_ofNat]
  omega

/-- A CRC step shifts the high byte of `c` down and sends the low byte of `c XOR b` through the table, and eight shift
steps do the same to the two parts of `c XOR b` (R73). -/
theorem crcStep_eq_crcShift8 (c : Word) (b : Byte) : crcStep c b = crcShift8 (c ^^^ b.setWidth 16) := by
  have hparts : c ^^^ b.setWidth 16 = be16 (hi8 c) 0 ^^^ (lo8 c ^^^ b).setWidth 16 :=
    word_ext (by simp [hi8_xor]) (by simp [lo8_xor])
  have hshift : c >>> 8 = be16 (hi8 c) 0 >>> 8 := word_ext (by simp) (by simp)
  rw [hparts, crcShift8_xor, crcShift8_of_lo8_eq_zero (lo8_be16 ..), ← tableEntriesAreEightShifts, ← hshift, crcStep]

/-- Masking the low byte, as R73 writes it, takes it out of the word. -/
theorem ofNat_and_0xFF (c : Word) : BitVec.ofNat 8 (c &&& 0xFF).toNat = lo8 c := by
  apply BitVec.eq_of_toNat_eq
  have hmask : (c &&& 0xFF).toNat = c.toNat % 256 := Nat.and_two_pow_sub_one_eq_mod c.toNat 8
  rw [BitVec.toNat_ofNat, hmask, lo8_toNat]
  exact Nat.mod_mod c.toNat 256

/-- Settles O7. -/
theorem byteStepIsBitSerial : Obligations.ByteStepIsBitSerial := by
  refine ⟨fun c b => ⟨?_, crcStep_eq_crcShift8 c b⟩, fun _ => rfl⟩
  rw [ofNat_and_0xFF, crcStep]

/-- The table is linear over XOR, as the shift form is. -/
theorem crcTab_xor (i j : Byte) : crcTab (i ^^^ j) = crcTab i ^^^ crcTab j := by
  simp only [tableEntriesAreEightShifts _, BitVec.setWidth_xor, crcShift8_xor]

/-- The table entries differ in their high bytes: by linearity it is enough that only entry 0 has high byte 0. -/
theorem eq_of_hi8_crcTab_eq {i j : Byte} (h : hi8 (crcTab i) = hi8 (crcTab j)) : i = j := by
  have hzero : ∀ k : Byte, hi8 (crcTab k) = 0 → k = 0 := by decide
  refine BitVec.xor_eq_zero_iff.1 (hzero (i ^^^ j) ?_)
  rw [crcTab_xor, hi8_xor]
  exact BitVec.xor_eq_zero_iff.2 h

/-- Two CRC steps with one result met the same table entry and kept the same high byte. -/
theorem crcStep_inj {c d : Word} {a b : Byte} (h : crcStep c a = crcStep d b) :
    hi8 c = hi8 d ∧ lo8 c ^^^ a = lo8 d ^^^ b := by
  have hhi := congrArg hi8 h
  have hlo := congrArg lo8 h
  rw [hi8_crcStep, hi8_crcStep] at hhi
  have hidx := eq_of_hi8_crcTab_eq hhi
  rw [lo8_crcStep, lo8_crcStep, hidx, BitVec.xor_left_inj] at hlo
  exact ⟨hlo, hidx⟩

theorem crcStep_left_injective (b : Byte) : Function.Injective (crcStep · b) := by
  intro c d h
  obtain ⟨hhi, hlo⟩ := crcStep_inj h
  exact word_ext hhi ((BitVec.xor_left_inj b).1 hlo)

theorem crcStep_right_injective (c : Word) : Function.Injective (crcStep c) := by
  intro a b h
  exact (BitVec.xor_right_inj (lo8 c)).1 (crcStep_inj h).2

/-- The bytes that follow keep two running CRC values apart. -/
theorem foldl_crcStep_injective (bytes : List Byte) : Function.Injective (bytes.foldl crcStep ·) := by
  induction bytes with
  | nil => exact Function.injective_id
  | cons b bytes ih => exact ih.comp (crcStep_left_injective b)

/-- A CRC step gives a high byte of 0 only on the low byte of the running value. -/
theorem eq_lo8_of_hi8_crcStep {c : Word} {b : Byte} (h : hi8 (crcStep c b) = 0) : b = lo8 c := by
  have hidx : lo8 c ^^^ b = 0 := eq_of_hi8_crcTab_eq (by rw [← hi8_crcStep, h]; rfl)
  exact (BitVec.xor_eq_zero_iff.1 hidx).symm

/-- Two bytes bring the running value to 0 only if they are its own two bytes, low byte first. -/
theorem eq_bytes_of_crcStep_crcStep {c : Word} {a b : Byte} (h : crcStep (crcStep c a) b = 0) :
    a = lo8 c ∧ b = hi8 c := by
  have hb : b = lo8 (crcStep c a) := eq_lo8_of_hi8_crcStep (by rw [h]; rfl)
  rw [hb, crcStep_lo8] at h
  have ha : a = lo8 c := eq_lo8_of_hi8_crcStep (by rw [← lo8_shiftRight_8, h]; rfl)
  exact ⟨ha, by rw [hb, ha, crcStep_lo8, lo8_shiftRight_8]⟩

/-- For a frame of this server the CRC test alone is left to decide (R75, R108). -/
theorem decodeFrame_crcFail_iff (fill : Nat → Byte) {addr : Byte} {frame : List Byte} (hlen : 4 ≤ frame.length)
    (haddr : frame[0]? = some addr) : decodeFrame fill addr frame = .reject .crcFail ↔ crc16 frame ≠ 0 := by
  obtain ⟨hshort, -⟩ | ⟨-, hother, -⟩ | ⟨-, -, hcrc, hd⟩ | ⟨-, -, hcrc, hd⟩ := decodeFrame_cases fill addr frame
  · omega
  · exact absurd haddr hother
  · exact iff_of_true hd hcrc
  · exact iff_of_false (by simp [hd]) (not_not.2 hcrc)

/-- Settles O8. -/
theorem residueTestIsCrcComparison : Obligations.ResidueTestIsCrcComparison := by
  refine ⟨fun fill _ _ => decodeFrame_crcFail_iff fill, crc16_withCrc, fun p a b => ⟨fun h => ?_, ?_⟩,
    by decide, by decide⟩
  · rw [crc16_append] at h
    exact eq_bytes_of_crcStep_crcStep h
  · rintro ⟨rfl, rfl⟩
    exact crc16_withCrc p

theorem foldl_crcStep_replicate_zero (n : Nat) : (List.replicate n 0).foldl crcStep 0 = 0 := by
  have hstep : crcStep 0 0 = 0 := by decide
  induction n with
  | zero => rfl
  | succ n ih => rw [List.replicate_succ, List.foldl_cons, hstep, ih]

/-- Settles O9. -/
theorem trailingZerosKeepResidue : Obligations.TrailingZerosKeepResidue := by
  refine ⟨rfl, fun frame n h => ?_⟩
  rw [crc16_append, h, foldl_crcStep_replicate_zero]

/-- A CRC tells apart two sequences that differ in one byte. -/
theorem crc16_replace_byte_injective (before after : List Byte) :
    Function.Injective fun b => crc16 (before ++ b :: after) := by
  intro a b h
  simp only [crc16_append, List.foldl_cons] at h
  exact crcStep_right_injective _ (foldl_crcStep_injective after h)

/-- Settles O10: the flipped byte is another byte, so the CRC is another one. -/
theorem singleBitFlipIsDetected : Obligations.SingleBitFlipIsDetected := by
  intro before after b k hk hcrc hflip
  have hbyte : b ^^^ (1#8 <<< k) = b := crc16_replace_byte_injective before after (hflip.trans hcrc.symm)
  have hbit := congrArg (BitVec.getLsbD · k) hbyte
  simp [hk] at hbit

end Sys2Proof.Machine

/-! Silence (R81 to R88, R168, R200): which event comes next, a run of Ticks, the Decode that the expiry leads to. -/

namespace Sys2Proof.Machine

/-- With no intake forced a scheduled event is the next one (R180). -/
theorem nextEvent_of_not_forced {s : State} {e : Event} {rest : List Event} (hforced : s.intakeForced = false)
    (ha : s.agenda = e :: rest) : nextEvent s = (e, rest) := by
  unfold nextEvent
  rw [ha, hforced]
  cases e <;> rfl

/-- With nothing scheduled and no intake forced the block or the tick source moves (R168, R200). -/
theorem nextEvent_of_agenda_nil {s : State} (hforced : s.intakeForced = false) (ha : s.agenda = []) :
    nextEvent s = (idleEvent s, []) := by
  unfold nextEvent
  rw [ha, hforced]
  rfl

theorem State.intakePending_of_rxq_nil {s : State} (h : s.rxq = []) : s.intakePending = false := by
  simp [State.intakePending, State.received, h]

theorem State.intakeForced_of_rxq_nil {s : State} (h : s.rxq = []) : s.intakeForced = false := by
  simp [State.intakeForced, State.intakePending_of_rxq_nil h]

/-- Without a pending byte or expiry, a scheduled Tick and an empty agenda both mean that the next event is a Tick. -/
theorem nextEvent_tick {s : State} (hrxq : s.rxq = []) (hst : s.tmrSt ≠ .expired)
    (hticks : ∀ e ∈ s.agenda, e = .tick) : nextEvent s = (.tick, s.agenda.tail) := by
  have hforced := State.intakeForced_of_rxq_nil hrxq
  cases ha : s.agenda with
  | nil => simp [nextEvent_of_agenda_nil hforced ha, idleEvent, State.decodePending, hst]
  | cons e rest =>
    obtain rfl : e = .tick := hticks e (by simp [ha])
    exact nextEvent_of_not_forced hforced ha

/-- With nothing pending and nothing scheduled an expiry leads to a Decode, its serial peripheral live (R168). -/
theorem nextEvent_decode {s : State} (hrxq : s.rxq = []) (hst : s.tmrSt = .expired) (hdir : s.dir = .rx)
    (ha : s.agenda = []) : nextEvent s = (.decode [] none, []) := by
  have hdecode : s.decodePending = true := by simp [State.decodePending, State.decoding, hst, hdir]
  simp [nextEvent_of_agenda_nil (State.intakeForced_of_rxq_nil hrxq) ha, idleEvent, hdecode,
    State.intakePending_of_rxq_nil hrxq]

/-- Settles O11, one case of `tick_cases` at a time. -/
theorem tickCountsOnlyInCounting : Obligations.TickCountsOnlyInCounting := by
  rintro s rest ⟨hfault, ha, hforced⟩
  have hstep : step s = .next (tick (beginEvent rest s)) := by
    rw [step_of_no_fault hfault, nextEvent_of_not_forced hforced ha, runEvent]
  refine ⟨_, hstep, ?_⟩
  obtain ⟨hst, ht⟩ | ⟨hst, hcnt, ht⟩ | ⟨hst, hcnt, ht⟩ := tick_cases (beginEvent rest s) <;> rw [ht]
  · exact ⟨fun h => absurd h hst, fun h => absurd h hst, fun _ => rfl⟩
  · exact ⟨fun _ _ => rfl, fun _ h => absurd hcnt h, fun h => absurd hst h⟩
  · exact ⟨fun _ h => absurd h hcnt, fun _ _ => rfl, fun h => absurd hst h⟩

theorem tick_of_counting {s : State} (h : s.tmrSt = .counting) : tick s = { s with
    tmrCnt := s.tmrCnt + 1
    tmrSt := if s.tmrCnt + 1 = s.thresh then .expired else .counting } := by
  obtain ⟨hst, -⟩ | ⟨-, hcnt, ht⟩ | ⟨-, hcnt, ht⟩ := tick_cases s
  · exact absurd h hst
  · rw [ht, if_pos hcnt]
  · rw [ht, if_neg hcnt, h]

/-- A running timer in silence: no Fault, no byte pending, nothing but Ticks scheduled, and the timer counting below
its threshold or just expired at it (R85, R88). -/
structure Silent (s : State) : Prop where
  no_fault : s.fault = false
  no_byte : s.rxq = []
  ticks : ∀ e ∈ s.agenda, e = .tick
  timer : s.tmrSt = if s.tmrCnt = s.thresh then .expired else .counting

/-- What `n` Ticks of a running timer lead to, none of them after the expiry: `Silent.run_ticks`. -/
def afterTicks (n : Nat) (s : State) : State := { s with
  agenda := s.agenda.drop n
  draws := s.draws + n
  tmrCnt := s.tmrCnt + n
  tmrSt := if s.tmrCnt + n = s.thresh then .expired else .counting }

theorem afterTicks_zero {s : State} (h : Silent s) : afterTicks 0 s = s := by
  simp [afterTicks, ← h.timer]

theorem afterTicks_afterTicks_one (n : Nat) (s : State) : afterTicks n (afterTicks 1 s) = afterTicks (n + 1) s := by
  simp [afterTicks, Nat.add_assoc, Nat.add_comm 1 n]

theorem silent_afterTicks {s : State} (h : Silent s) (n : Nat) : Silent (afterTicks n s) :=
  ⟨h.no_fault, h.no_byte, fun e he => h.ticks e (List.mem_of_mem_drop he), rfl⟩

theorem step_of_silent {s : State} (h : Silent s) (hlt : s.tmrCnt < s.thresh) : step s = .next (afterTicks 1 s) := by
  have hst : s.tmrSt = .counting := by rw [h.timer, if_neg hlt.ne]
  rw [step_of_no_fault h.no_fault, nextEvent_tick h.no_byte (by simp [hst]) h.ticks, runEvent,
    tick_of_counting (s := beginEvent _ s) hst, afterTicks, List.drop_one]
  rfl

theorem run_succ {s t : State} (n : Nat) (h : step s = .next t) :
    Host.Core.run Sys2Proof.core (n + 1) s = Host.Core.run Sys2Proof.core n t := by
  have hcore : Sys2Proof.core.step s = .next t := h
  simp only [Host.Core.run, hcore]

/-- The first `n` steps in silence are Ticks as long as the threshold is not passed; `m` steps are left. -/
theorem Silent.run_ticks {s : State} (h : Silent s) (n m : Nat) (hn : s.tmrCnt + n ≤ s.thresh) :
    Host.Core.run Sys2Proof.core (n + m) s = Host.Core.run Sys2Proof.core m (afterTicks n s) := by
  induction n generalizing s with
  | zero => rw [afterTicks_zero h, Nat.zero_add]
  | succ n ih =>
    have hfirst := step_of_silent h (by omega)
    have hrest : s.tmrCnt + 1 + n ≤ s.thresh := by omega
    rw [Nat.succ_add, run_succ _ hfirst, ih (silent_afterTicks h 1) hrest, afterTicks_afterTicks_one]

/-- Settles O12: a freshly rearmed timer runs in silence, and its count starts at 0. -/
theorem expiryAtThresholdTick : Obligations.ExpiryAtThresholdTick := by
  intro s n hfault hst hcnt hrxq hn hpos ha
  have hsilent : Silent s :=
    ⟨hfault, hrxq, fun e he => List.eq_of_mem_replicate (ha ▸ he), by rw [hst, if_neg (by omega)]⟩
  exact ⟨_, hsilent.run_ticks n 0 (by omega), by simp [afterTicks, hcnt], by simp [afterTicks, hcnt], rfl, rfl, rfl⟩

theorem waitTxc_ne_none_of_live {s : State} (h : s.live) : waitTxc s ≠ none := by
  unfold waitTxc
  split
  · simp
  · simp [State.answer, h]

/-- A live serial peripheral lets every transmission complete (R147, R152). -/
theorem transmit_dir_of_live (resp : List Byte) {s : State} (h : s.live) : (transmit resp s).dir = .rx := by
  simp only [transmit, sendBytes_live resp { s with dir := .tx, tx := s.tx ++ [.dirTx] } h]
  split
  · rename_i hwait
    exact absurd hwait (waitTxc_ne_none_of_live h)
  · rfl

/-- Writes of the store, and then one transmission: what every command that answers at all consists of. -/
def WritesThenTransmits (s t : State) : Prop := ∃ resp u, u = { s with hreg := u.hreg } ∧ t = transmit resp u

theorem illegalFunction_transmits {func : Byte} {s t : State} (h : illegalFunction func s = .next t) :
    WritesThenTransmits s t :=
  ⟨_, s, rfl, (Host.Outcome.next.inj h).symm⟩

theorem readRegisters_transmits {func : Byte} {start count : Word} {s t : State}
    (h : readRegisters func start count s = .next t) : WritesThenTransmits s t := by
  unfold readRegisters at h
  split at h
  · simp at h
  · exact ⟨_, s, rfl, (Host.Outcome.next.inj h).symm⟩

theorem execWrsr_transmits {reg val : Word} {s t : State} (h : execWrsr reg val s = .next t) :
    WritesThenTransmits s t := by
  unfold execWrsr at h
  split at h
  · simp at h
  · rename_i u hu
    obtain ⟨-, rfl⟩ := State.writeReg_eq hu
    exact ⟨_, _, rfl, (Host.Outcome.next.inj h).symm⟩

theorem execWrmr_transmits {start count : Word} {bytecount : Byte} {vals : List Word} {s t : State}
    (h : execWrmr start count bytecount vals s = .next t) : WritesThenTransmits s t := by
  unfold execWrmr at h
  split at h
  · simp at h
  · rename_i u hu
    exact ⟨_, u, State.writeRegs_frame hu, (Host.Outcome.next.inj h).symm⟩

/-- Only an unknown function code is passed over without a transmission (R143, R147). -/
theorem exec_transmits {i : Instr} {s t : State} (h : exec i s = .next t) : t = s ∨ WritesThenTransmits s t := by
  cases i with
  | rdco => exact .inr (illegalFunction_transmits h)
  | rddi => exact .inr (illegalFunction_transmits h)
  | rdhr start count => exact .inr (readRegisters_transmits h)
  | rdir start count => exact .inr (readRegisters_transmits h)
  | wrsc => exact .inr (illegalFunction_transmits h)
  | wrsr reg val => exact .inr (execWrsr_transmits h)
  | wrmc => exact .inr (illegalFunction_transmits h)
  | wrmr start count bytecount vals => exact .inr (execWrmr_transmits (bytecount := bytecount) h)
  | other func => exact .inl (Host.Outcome.next.inj h).symm

theorem exec_dir_of_live {i : Instr} {s t : State} (h : exec i s = .next t) (hlive : s.live) (hdir : s.dir = .rx) :
    t.dir = .rx := by
  obtain rfl | ⟨resp, u, hu, rfl⟩ := exec_transmits h
  · exact hdir
  · exact transmit_dir_of_live resp (by rw [hu]; exact hlive)

/-- A Decode is never refused once it has begun: it ends, waits, or faults (R113, R160). -/
theorem decodeEvent_next (arr : List Byte) (stall : Option Nat) (s : State) :
    ∃ t, decodeEvent arr stall s = .next t := by
  unfold decodeEvent
  split
  · exact ⟨_, rfl⟩
  · rename_i i _
    obtain ⟨u, hu⟩ | hu := exec_cases i (enterDecode stall s)
    · exact ⟨_, by rw [hu]; rfl⟩
    · exact ⟨_, by rw [hu]; rfl⟩

/-- A Decode during which no byte arrives and whose transmission completes leaves the block quiescent (R117, R200). -/
theorem finishDecode_quiescent {s u : State} {stall : Option Nat} (hu : CommandEffect (enterDecode stall s) u)
    (hdir : u.dir = .rx) (hrxq : s.rxq = []) (hfault : s.fault = false) : (finishDecode [] u).quiescent := by
  rw [finishDecode_effect [] hu, hdir]
  exact ⟨rfl, rfl, by simp [State.receiveAll_eq, hrxq], rfl, rfl, hfault⟩

/-- An expiry in silence is followed by a Decode that ends quiescent or faults (R168, R200). -/
theorem step_expired_quiescent {s : State} (hfault : s.fault = false) (hdir : s.dir = .rx) (hrxq : s.rxq = [])
    (ha : s.agenda = []) (hst : s.tmrSt = .expired) : ∃ t, step s = .next t ∧ (t.fault = true ∨ t.quiescent) := by
  have hnext := nextEvent_decode hrxq hst hdir ha
  have hpending : (beginEvent [] s).decodePending = true := by simp [State.decodePending, State.decoding, hst, hdir]
  obtain ⟨t, ht⟩ := decodeEvent_next [] none (beginEvent [] s)
  have hstep : step s = .next t := by rw [step_of_no_fault hfault, hnext, runEvent, if_pos hpending, ht]
  refine ⟨t, hstep, ?_⟩
  cases hf : t.fault with
  | true => exact .inl rfl
  | false =>
    obtain ⟨-, heffect⟩ := step_effect hstep
    rw [hnext] at heffect
    obtain ⟨u, rfl, hu, hcommand⟩ := heffect.decode_of_no_fault hf
    have hudir : u.dir = .rx := by
      obtain rfl | ⟨i, -, hexec⟩ := hcommand
      · exact hdir
      · exact exec_dir_of_live hexec rfl hdir
    exact .inr (finishDecode_quiescent hu hudir hrxq hfault)

/-- Settles O47: an idle timer is quiescent at once, a pending expiry is one Decode away from it, and a counting timer
first runs its Ticks out. -/
theorem silenceLeadsToQuiescence : Obligations.SilenceLeadsToQuiescence := by
  rintro s ⟨-, hsound⟩ hfault hdir hrxq ha
  obtain ⟨-, hrxie, hidle, hcounting⟩ := (hsound hfault).ready fun ⟨htx, _, _⟩ => by simp [hdir] at htx
  cases hst : s.tmrSt with
  | idle =>
    obtain ⟨hbuf, -⟩ := hidle hst
    exact ⟨0, s, Nat.zero_le _, rfl, .inr ⟨hst, hbuf, hrxq, hrxie, hdir, hfault⟩⟩
  | counting =>
    obtain ⟨-, hlt⟩ := hcounting hst
    have hsilent : Silent s := ⟨hfault, hrxq, by simp [ha], by rw [hst, if_neg hlt.ne]⟩
    have hexpired : (afterTicks (s.thresh - s.tmrCnt) s).tmrSt = .expired := if_pos (by omega)
    obtain ⟨t, hstep, hend⟩ := step_expired_quiescent (s := afterTicks (s.thresh - s.tmrCnt) s) hfault hdir hrxq
      (by simp [afterTicks, ha]) hexpired
    refine ⟨s.thresh - s.tmrCnt + 1, t, by omega, ?_, hend⟩
    rw [hsilent.run_ticks _ 1 (by omega), run_succ 0 hstep]
    rfl
  | expired =>
    obtain ⟨t, hstep, hend⟩ := step_expired_quiescent hfault hdir hrxq ha hst
    exact ⟨1, t, Nat.le_add_left _ _, run_succ 0 hstep, hend⟩

end Sys2Proof.Machine

/-! The intake (R82 to R84, R93 to R97). -/

namespace Sys2Proof.Machine

theorem dropIntake_eq (agenda : List Event) :
    dropIntake agenda = if agenda.head? = some .rxIntake then agenda.tail else agenda := by
  unfold dropIntake
  split
  · rfl
  · rename_i hhead
    rw [if_neg]
    intro h
    obtain ⟨rest, rfl⟩ := List.head?_eq_some_iff.1 h
    exact hhead rest rfl

/-- A forced intake comes before everything that is scheduled but a Reset (R93, R180). -/
theorem nextEvent_of_forced {s : State} (hforced : s.intakeForced = true) (ha : s.agenda.head? ≠ some .reset) :
    nextEvent s = (.rxIntake, dropIntake s.agenda) := by
  unfold nextEvent
  split
  · rename_i hreset
    simp [hreset] at ha
  · rw [if_pos hforced]

/-- The intake of a pending byte (R95 to R97). -/
theorem runEvent_rxIntake {s : State} {b : Byte} {queue : List Byte} (hrxq : s.rxq = b :: queue)
    (hrxie : s.rxie = true) : runEvent .rxIntake s = .next { s with
      rxq := queue
      tmrCnt := 0
      tmrSt := if s.tmrSt = .expired then .expired else .counting
      buf := if s.buf.length < s.params.frameCap then s.buf ++ [b] else s.buf } := by
  have hpending : s.intakePending = true := by simp [State.intakePending, State.received, hrxq, hrxie]
  have hintake : intake s = some (append b (rearm { s with rxq := queue })) := by rw [intake, hrxq]
  rw [runEvent, if_pos hpending, hintake, append_eq, rearm_eq]
  rfl

/-- Settles O13: the guard of the forced intake holds, and the timer it rearms is not expired. -/
theorem intakeReadsRearmsAppends : Obligations.IntakeReadsRearmsAppends := by
  intro s b queue hfault hrxq hrxie hst ha
  have hforced : s.intakeForced = true := by
    simp [State.intakeForced, State.intakePending, State.received, hrxq, hrxie, hst]
  have hstep : step s = runEvent .rxIntake (beginEvent (dropIntake s.agenda) s) := by
    rw [step_of_no_fault hfault, nextEvent_of_forced hforced ha]
  rw [runEvent_rxIntake (s := beginEvent _ s) hrxq hrxie, dropIntake_eq, beginEvent_tmrSt, if_neg hst] at hstep
  exact ⟨_, hstep, rfl⟩

/-- Settles O14: no intake is forced, so it is the scheduled one that runs, and it keeps the expiry pending. -/
theorem intakeWhileExpiredKeepsExpiry : Obligations.IntakeWhileExpiredKeepsExpiry := by
  intro s b queue rest hfault hrxq hrxie hst ha
  have hstep : step s = runEvent .rxIntake (beginEvent rest s) := by
    rw [step_of_no_fault hfault, nextEvent_of_expired hst ha]
  rw [runEvent_rxIntake (s := beginEvent _ s) hrxq hrxie, beginEvent_tmrSt, if_pos hst, ← hst] at hstep
  exact ⟨_, hstep, rfl⟩

end Sys2Proof.Machine

/-! The arrival of a byte (R94). -/

namespace Sys2Proof.Machine

/-- A scheduled event that is the next one leaves the agenda and runs (R180). -/
theorem step_of_eventNext {s : State} {e : Event} {rest : List Event} (h : s.eventNext e rest) :
    step s = runEvent e (beginEvent rest s) := by
  obtain ⟨hfault, ha, hforced⟩ := h
  rw [step_of_no_fault hfault, nextEvent_of_not_forced hforced ha]

/-- Settles O15: the arrival is the next event, and `State.receive_eq` says all that it does. -/
theorem arrivalQueuesOrIsLost : Obligations.ArrivalQueuesOrIsLost := by
  intro s b rest hnext
  have hstep : step s = .next ((beginEvent rest s).receive b) := step_of_eventNext hnext
  rw [State.receive_eq] at hstep
  exact ⟨_, hstep, rfl⟩

end Sys2Proof.Machine

/-! The three tests and the dispatch (R60, R61, R106 to R110, R167). -/

namespace Sys2Proof

open Machine

/-- A frame that passes the three tests is dispatched (R105 to R109). -/
theorem decodeFrame_of_valid (fill : Nat → Byte) {addr : Byte} {frame : List Byte} (hlen : 4 ≤ frame.length)
    (haddr : frame[0]? = some addr) (hcrc : crc16 frame = 0) :
    decodeFrame fill addr frame = .instr (dispatchFrame (frameByte fill frame)) := by
  obtain ⟨hshort, -⟩ | ⟨-, hother, -⟩ | ⟨-, -, hbad, -⟩ | ⟨-, -, -, h⟩ := decodeFrame_cases fill addr frame
  · omega
  · exact absurd haddr hother
  · exact absurd hcrc hbad
  · exact h

/-- Settles O4: each test is one `if` of the decoder, and the tests before it are passed. -/
theorem validationTestsInOrder : Obligations.ValidationTestsInOrder := by
  intro fill addr frame
  refine ⟨fun hshort => if_pos hshort, fun hlen hother => ?_, fun hlen haddr => ?_, fun hlen haddr hcrc => ?_⟩
  · rw [decodeFrame, Config.minFrame, if_neg hlen.not_gt, if_pos hother]
  · exact (decodeFrame_crcFail_iff fill hlen haddr).2
  · exact ⟨_, decodeFrame_of_valid fill hlen haddr hcrc⟩

@[simp] theorem frameValues_length (B : Nat → Byte) (n : Nat) : (frameValues B n).length = n := by
  rw [frameValues, List.length_map, List.length_range]

/-- The `k`-th value of a write-multiple stands at offsets 7 + 2k and 8 + 2k (R54). -/
theorem frameValues_getElem? (B : Nat → Byte) {n k : Nat} (h : k < n) :
    (frameValues B n)[k]? = some (be16 (B (7 + 2 * k)) (B (8 + 2 * k))) := by
  rw [frameValues, List.getElem?_map, List.getElem?_range h, Option.map_some, frameWord,
    show 7 + 2 * k + 1 = 8 + 2 * k by omega]

/-- Settles O3: a valid frame is dispatched, and with a known byte 1 the dispatch is one of its nine arms. -/
theorem dispatchFollowsOpcodeMap : Obligations.DispatchFollowsOpcodeMap := by
  intro fill addr frame hlen haddr hcrc B
  have harm {i : Instr} (h : dispatchFrame B = i) : decodeFrame fill addr frame = .instr i := by
    rw [← h]
    exact decodeFrame_of_valid fill hlen haddr hcrc
  refine ⟨fun h => harm ?_, fun h => harm ?_, fun h => harm ?_, fun h => harm ?_, fun h => harm ?_,
    fun h => harm ?_, fun h => harm ?_, fun h => ?wrmr, fun h => harm (dispatchFrame_of_notMem_namedCodes h)⟩
  case wrmr =>
    refine ⟨frameValues B (valueCount (frameWord B 4)), harm ?_, frameValues_length _ _, fun k hk => ?_⟩
    · rw [dispatchFrame, h]
      rfl
    · exact frameValues_getElem? B (by rwa [frameValues_length] at hk)
  all_goals
    rw [dispatchFrame, h]
    rfl

/-- The dispatch gives `other` exactly for the function codes the opcode map does not name (R61, R143). -/
theorem dispatchFrame_eq_other_iff (B : Nat → Byte) : (∃ f, dispatchFrame B = .other f) ↔ B 1 ∉ namedCodes := by
  refine ⟨?_, fun h => ⟨_, dispatchFrame_of_notMem_namedCodes h⟩⟩
  rintro ⟨f, hf⟩
  have hcode := opcode_dispatchFrame B
  have hwf := dispatchFrame_wellFormed B
  rw [hf] at hcode hwf
  exact hcode ▸ of_decide_eq_true hwf

end Sys2Proof

/-! The Decode event that is next: entry, the command, the end (R103 to R105, R112 to R117). -/

namespace Sys2Proof.Machine

/-- A Decode that is next leaves the agenda and runs (R103). -/
theorem step_of_decodeNext {s : State} {arr : List Byte} {stall : Option Nat} {rest : List Event}
    (h : s.decodeNext arr stall rest) : step s = decodeEvent arr stall (beginEvent rest s) := by
  obtain ⟨hfault, hst, hdir, ha⟩ := h
  have hpending : (beginEvent rest s).decodePending = true := by
    simp [State.decodePending, State.decoding, hst, hdir]
  rw [step_of_no_fault hfault, nextEvent_of_expired hst ha, runEvent, if_pos hpending]

/-- Settles O16: the event is a Decode, and its command answers a next state or the one Fault. -/
theorem stepRunsDecodedInstruction : Obligations.StepRunsDecodedInstruction := by
  intro s arr stall rest i hnext hdecode
  have hfetch : fetch (beginEvent rest s) = .instr i := hdecode
  rw [step_of_decodeNext hnext, decodeEvent, hfetch]
  obtain ⟨t, ht⟩ | ht := exec_cases i (enterDecode stall (beginEvent rest s)) <;> simp only [ht, afterCommand]

/-- The state `u` is what the command leaves of `s` when the decoder has made `d` of the frame: a rejected frame has
no command (R112). -/
def CommandLeaves (s : State) (u : State) : Decoded → Prop
  | .reject _ => u = s
  | .instr i => exec i s = .next u

theorem CommandLeaves.effect {s u : State} {d : Decoded} (h : CommandLeaves s u d) : CommandEffect s u := by
  cases d with
  | reject r =>
    obtain rfl : u = s := h
    exact .refl u
  | instr i => exact exec_effect h

/-- With a live serial peripheral the command ends with the direction at RX (R147, R152). -/
theorem CommandLeaves.dir_of_live {s u : State} {d : Decoded} (h : CommandLeaves s u d) (hlive : s.live)
    (hdir : s.dir = .rx) : u.dir = .rx := by
  cases d with
  | reject r =>
    obtain rfl : u = s := h
    exact hdir
  | instr i => exact exec_dir_of_live h hlive hdir

/-- Everything a Decode that is next can do: a Fault, or the command and the end of the event. -/
theorem step_decode_outcome {s : State} {arr : List Byte} {stall : Option Nat} {rest : List Event}
    (h : s.decodeNext arr stall rest) : ∃ t, step s = .next t ∧ (t.fault = true ∨
      ∃ u, CommandLeaves (enterDecode stall (beginEvent rest s)) u (fetch (beginEvent rest s)) ∧
        t = finishDecode arr u) := by
  obtain ⟨t, ht⟩ := decodeEvent_next arr stall (beginEvent rest s)
  refine ⟨t, by rw [step_of_decodeNext h, ht], ?_⟩
  obtain ⟨r, hr, rfl⟩ | ⟨i, u, hi, hu, rfl⟩ | ⟨i, -, -, rfl⟩ := decodeEvent_cases ht
  · exact .inr ⟨_, by rw [hr]; rfl, rfl⟩
  · exact .inr ⟨u, by rw [hi]; exact hu, rfl⟩
  · exact .inl (raiseFault_fault _)

@[simp] theorem finishDecode_tx (arr : List Byte) (s : State) : (finishDecode arr s).tx = s.tx := by
  rw [finishDecode_eq]
  split <;> rfl

/-! The epilogue (R115 to R117). -/

/-- Settles O18: with a live serial peripheral the epilogue runs, and it keeps what the command left of the store. -/
theorem decodeEndsReady : Obligations.DecodeEndsReady := by
  intro s arr rest hnext hrxq
  have ⟨_, _, hdir, _⟩ := hnext
  obtain ⟨t, hstep, hfault | ⟨u, hu, rfl⟩⟩ := step_decode_outcome hnext
  · exact ⟨t, hstep, .inl hfault⟩
  have hqueue : ((enterDecode none (beginEvent rest s)).receiveAll arr).rxq.tail.length ≤ s.params.rxDepth - 1 := by
    rw [List.length_tail]
    exact Nat.sub_le_sub_right (State.receiveAll_length arr (enterDecode none (beginEvent rest s)) hrxq) 1
  refine ⟨_, hstep, .inr ?_⟩
  rw [finishDecode_effect arr hu.effect, hu.dir_of_live rfl hdir]
  refine ⟨rfl, rfl, rfl, rfl, rfl, hqueue, rfl, rfl, fun r hr => ?_, fun i v hi hv => ?_⟩
  · rw [hr] at hu
    obtain rfl : u = _ := hu
    rfl
  · rw [hi] at hu
    obtain rfl := Host.Outcome.next.inj (hu.symm.trans hv)
    rfl

/-- Where at most one byte is held, the discard leaves the receive register empty, whatever arrived (R114, R115). -/
theorem finishDecode_rxq_eq_nil (arr : List Byte) {u : State} (hdir : u.dir = .rx) (hdepth : u.params.rxDepth = 1)
    (hrxq : u.rxq.length ≤ 1) : finishDecode arr u = leaveDecode { u with rxq := [] } := by
  have hone : (u.receiveAll arr).rxq.length ≤ 1 := hdepth ▸ u.receiveAll_length arr (hdepth ▸ hrxq)
  have htail : (u.receiveAll arr).rxq.tail = [] := List.eq_nil_of_length_eq_zero (by rw [List.length_tail]; omega)
  rw [finishDecode_eq, if_neg (by simp [hdir]), htail]
  rfl

/-- R114's nil net effect, as an equality of Decode events. -/
theorem decodeEvent_arrivals_irrelevant (arr1 arr2 : List Byte) {s : State} (hdir : s.dir = .rx)
    (hdepth : s.params.rxDepth = 1) (hrxq : s.rxq.length ≤ 1) : decodeEvent arr1 none s = decodeEvent arr2 none s := by
  have hend {u : State} {d : Decoded} (hu : CommandLeaves (enterDecode none s) u d) :
      finishDecode arr1 u = finishDecode arr2 u := by
    have hudepth : u.params.rxDepth = 1 := by rw [hu.effect.frame]; exact hdepth
    have hurxq : u.rxq.length ≤ 1 := by rw [hu.effect.frame]; exact hrxq
    have hudir := hu.dir_of_live rfl hdir
    rw [finishDecode_rxq_eq_nil arr1 hudir hudepth hurxq, finishDecode_rxq_eq_nil arr2 hudir hudepth hurxq]
  cases hd : fetch s with
  | reject r => rw [decodeEvent, decodeEvent, hd, hend (d := .reject r) rfl]
  | instr i =>
    rw [decodeEvent, decodeEvent, hd]
    obtain ⟨u, hu⟩ | hu := exec_cases i (enterDecode none s)
    · simp only [hu, afterCommand, hend (d := .instr i) hu]
    · simp only [hu, afterCommand]

/-- Settles O20: the two Decodes run in the same state, and O18 bounds the queue they leave. -/
theorem arrivalsDuringDecodeHaveNoEffect : Obligations.ArrivalsDuringDecodeHaveNoEffect := by
  intro s arr1 arr2 rest hdepth hrxq hnext
  have ⟨hfault, hst, hdir, _⟩ := hnext
  refine ⟨?_, ?_⟩
  · rw [step_of_decodeNext hnext,
      step_of_decodeNext (s := { s with agenda := .decode arr2 none :: rest }) ⟨hfault, hst, hdir, rfl⟩]
    exact decodeEvent_arrivals_irrelevant arr1 arr2 (s := beginEvent rest s) hdir hdepth hrxq
  · obtain ⟨t, hstep, hend⟩ := decodeEndsReady s arr1 rest hnext (hdepth ▸ hrxq)
    refine ⟨t, hstep, hend.imp_right ?_⟩
    rintro ⟨-, -, -, -, -, hqueue, -⟩
    rw [hdepth] at hqueue
    exact List.eq_nil_of_length_eq_zero (Nat.le_zero.1 hqueue)

/-! The responses (R56 to R59, R111, R118, R157, R158). -/

/-- A response to the frame in the buffer: the frame itself (R57), or its address and 1 to 256 further bytes, closed
with their CRC (R56, R58, R59). -/
def IsResponse (s : State) (resp : List Byte) : Prop :=
  resp = s.buf ∨ ∃ body : List Byte, 1 ≤ body.length ∧ body.length ≤ 256 ∧ resp = withCrc (s.bufByte 0 :: body)

/-- `WritesThenTransmits` with what is transmitted: a response to the frame in the buffer (R111). -/
def Responds (s t : State) : Prop :=
  ∃ resp u, IsResponse s resp ∧ u = { s with hreg := u.hreg } ∧ t = transmit resp u

theorem illegalFunction_responds {func : Byte} {s t : State} (h : illegalFunction func s = .next t) : Responds s t :=
  ⟨_, s, .inr ⟨_, Nat.le_add_left _ _, by simp, rfl⟩, rfl, (Host.Outcome.next.inj h).symm⟩

/-- The clamp to 127 registers bounds a read response (R120). -/
theorem readRegisters_responds {func : Byte} {start count : Word} {s t : State}
    (h : readRegisters func start count s = .next t) : Responds s t := by
  have hclamp : s.clampedCount start count ≤ 127 := clamp_le _ _ _
  rw [readRegisters, State.readRegs_eq] at h
  split_ifs at h
  refine ⟨_, s, .inr ⟨_, ?_, ?_, rfl⟩, rfl, (Host.Outcome.next.inj h).symm⟩
  · exact Nat.le_add_left _ _
  · simp only [List.length_cons, flatMap_beBytes_length, List.length_map, List.length_range]
    omega

theorem execWrsr_responds {reg val : Word} {s t : State} (h : execWrsr reg val s = .next t) : Responds s t := by
  unfold execWrsr at h
  split at h
  · nomatch h
  · rename_i u hu
    obtain ⟨-, rfl⟩ := State.writeReg_eq hu
    exact ⟨s.buf, _, .inl rfl, rfl, (Host.Outcome.next.inj h).symm⟩

theorem execWrmr_responds {start count : Word} {bytecount : Byte} {vals : List Word} {s t : State}
    (h : execWrmr start count bytecount vals s = .next t) : Responds s t := by
  unfold execWrmr at h
  split at h
  · nomatch h
  · rename_i u hu
    exact ⟨_, u, .inr ⟨_, Nat.le_add_left _ _, by simp [beBytes], rfl⟩, State.writeRegs_frame hu,
      (Host.Outcome.next.inj h).symm⟩

/-- Every command that ends responds, but for the unknown function codes, which do nothing (R111, R143). -/
theorem exec_responds {i : Instr} {s t : State} (h : exec i s = .next t) :
    ((∃ f, i = .other f) ∧ t = s) ∨ Responds s t := by
  cases i with
  | rdco => exact .inr (illegalFunction_responds h)
  | rddi => exact .inr (illegalFunction_responds h)
  | rdhr start count => exact .inr (readRegisters_responds h)
  | rdir start count => exact .inr (readRegisters_responds h)
  | wrsc => exact .inr (illegalFunction_responds h)
  | wrsr reg val => exact .inr (execWrsr_responds h)
  | wrmc => exact .inr (illegalFunction_responds h)
  | wrmr start count bytecount vals => exact .inr (execWrmr_responds (bytecount := bytecount) h)
  | other func => exact .inl ⟨⟨func, rfl⟩, (Host.Outcome.next.inj h).symm⟩

/-- A response to a valid frame has CRC residue 0, starts with its address, and has 4 to 259 bytes unless it is the
frame itself. -/
theorem IsResponse.envelope {s : State} {resp : List Byte} (h : IsResponse s resp) (hlen : 4 ≤ s.buf.length)
    (haddr : s.buf[0]? = some s.addr) (hcrc : crc16 s.buf = 0) :
    crc16 resp = 0 ∧ resp[0]? = some s.addr ∧ 4 ≤ resp.length ∧ resp.length ≤ max 259 s.buf.length := by
  obtain rfl | ⟨body, hmin, hmax, rfl⟩ := h
  · exact ⟨hcrc, haddr, hlen, le_max_right _ _⟩
  · have hbyte : s.bufByte 0 = s.addr := by rw [State.bufByte, frameByte, haddr, Option.getD_some]
    have hlength : (withCrc (s.bufByte 0 :: body)).length = body.length + 3 := by simp [withCrc_length]
    refine ⟨crc16_withCrc _, ?_, by omega, by omega⟩
    rw [hbyte]
    rfl

/-- Settles O19: a command runs on a valid frame only, and what it sends is a response to that frame. -/
theorem everyResponseHasResidueZero : Obligations.EveryResponseHasResidueZero := by
  intro s arr rest hnext hcap
  obtain ⟨t, hstep, hfault | ⟨u, hu, rfl⟩⟩ := step_decode_outcome hnext
  · exact ⟨t, hstep, .inl hfault⟩
  refine ⟨_, hstep, .inr ?_⟩
  rw [finishDecode_tx]
  obtain ⟨-, hd⟩ | ⟨-, -, hd⟩ | ⟨-, -, -, hd⟩ | ⟨hlen, haddr, hcrc, hd⟩ :=
    decodeFrame_cases (beginEvent rest s).drawAt s.addr s.buf <;> rw [fetch, beginEvent_addr, beginEvent_buf, hd] at hu
  iterate 3
    · obtain rfl : u = _ := hu
      exact .inl rfl
  obtain ⟨-, rfl⟩ | ⟨resp, v, hresp, hv, rfl⟩ := exec_responds hu
  · exact .inl rfl
  · obtain ⟨hresidue, hfirst, hmin, hmax⟩ := hresp.envelope hlen haddr hcrc
    have hne : resp ≠ [] := List.ne_nil_of_length_pos (by omega)
    have hlive : v.stall = none := by rw [hv]; rfl
    have htx : v.tx = s.tx := by rw [hv]; rfl
    refine .inr ⟨resp, ?_, hresidue, hfirst, hmin, hmax.trans (max_le_max le_rfl hcap)⟩
    rw [transmit_live resp v hlive hne, htx]

/-! The Decodes without a response (R112). -/

/-- R112's four cases: a short frame, another station's address, a residue other than 0, an unnamed function code. -/
def State.SilentFrame (s : State) : Prop :=
  s.len < 4 ∨ s.buf[0]? ≠ some s.addr ∨ crc16 s.buf ≠ 0 ∨ ∃ f, s.buf[1]? = some f ∧ f ∉ namedCodes

/-- The silent frames are those the decoder rejects or makes an `other` of. -/
theorem State.silentFrame_iff (s : State) :
    s.SilentFrame ↔ (∃ r, fetch s = .reject r) ∨ ∃ f, fetch s = .instr (.other f) := by
  unfold fetch
  obtain ⟨hlen, hd⟩ | ⟨-, haddr, hd⟩ | ⟨-, -, hcrc, hd⟩ | ⟨hlen, haddr, hcrc, hd⟩ :=
    decodeFrame_cases s.drawAt s.addr s.buf <;> rw [hd]
  · exact iff_of_true (.inl hlen) (.inl ⟨_, rfl⟩)
  · exact iff_of_true (.inr (.inl haddr)) (.inl ⟨_, rfl⟩)
  · exact iff_of_true (.inr (.inr (.inl hcrc))) (.inl ⟨_, rfl⟩)
  · have hcode : s.buf[1]? = some (frameByte s.drawAt s.buf 1) := by
      rw [frameByte, List.getElem?_eq_getElem (by omega), Option.getD_some]
    have hother := dispatchFrame_eq_other_iff (frameByte s.drawAt s.buf)
    simp [State.SilentFrame, State.len, hlen.not_gt, haddr, hcrc, hcode, hother]

/-- A silent frame's command does nothing, so only the end of the event is left of its Decode (R112, R143). -/
theorem decodeEvent_of_silentFrame (arr : List Byte) (stall : Option Nat) {s : State} (h : s.SilentFrame) :
    decodeEvent arr stall s = .next (finishDecode arr (enterDecode stall s)) := by
  obtain ⟨r, hr⟩ | ⟨f, hf⟩ := s.silentFrame_iff.1 h
  · rw [decodeEvent, hr]
  · rw [decodeEvent, hf]
    rfl

/-- A transmission begins with the direction switch, even where it gets stuck (R147, R152). -/
theorem transmit_tx_ne (resp : List Byte) (s : State) : (transmit resp s).tx ≠ s.tx := by
  obtain h | ⟨n, -, h⟩ := transmit_eq resp s <;> rw [h] <;> simp [txGroup]

/-- A command that runs on a frame that is not silent sends something. -/
theorem CommandLeaves.tx_ne {s u : State} {stall : Option Nat} (h : CommandLeaves (enterDecode stall s) u (fetch s))
    (hsilent : ¬ s.SilentFrame) : u.tx ≠ s.tx := by
  rw [s.silentFrame_iff, not_or] at hsilent
  obtain ⟨hreject, hother⟩ := hsilent
  cases hd : fetch s with
  | reject r => exact absurd ⟨r, hd⟩ hreject
  | instr i =>
    rw [hd] at h
    obtain ⟨⟨f, rfl⟩, -⟩ | ⟨resp, v, -, hv, rfl⟩ := exec_responds h
    · exact absurd ⟨f, hd⟩ hother
    · have htx : v.tx = s.tx := by rw [hv]; rfl
      exact htx ▸ transmit_tx_ne resp v

/-- Settles O17: a silent Decode is the epilogue alone, and every other command that ends has sent something. -/
theorem silentDecodesAndOnlyThese : Obligations.SilentDecodesAndOnlyThese := by
  intro s arr stall rest hnext
  refine ⟨fun hsilent => ?_, fun hsilent => ?_⟩
  · have ⟨_, _, hdir, _⟩ := hnext
    have hstep : step s = .next (finishDecode arr (enterDecode stall (beginEvent rest s))) := by
      rw [step_of_decodeNext hnext]
      exact decodeEvent_of_silentFrame arr stall (s := beginEvent rest s) hsilent
    rw [finishDecode_eq, State.receiveAll_eq, if_neg (by simp [hdir])] at hstep
    exact ⟨_, hstep, rfl⟩
  · obtain ⟨t, hstep, hfault | ⟨u, hu, rfl⟩⟩ := step_decode_outcome hnext
    · exact ⟨t, hstep, .inl hfault⟩
    · refine ⟨_, hstep, .inr ?_⟩
      rw [finishDecode_tx]
      exact hu.tx_ne (s := beginEvent rest s) hsilent

end Sys2Proof.Machine

/-! The clamp, the read commands, and the spec's example frames (R56, R119 to R124, R139, R143). -/

namespace Sys2Proof.Machine

/-- Settles O21: by its two cases the clamp is the count cut to 127 or what is left of the store. -/
theorem clampCases : Obligations.ClampCases := by
  intro nRegs start count
  obtain ⟨hstart, hover, hclamp⟩ | ⟨hfits, hclamp⟩ := clamp_eq nRegs start count <;> rw [hclamp] <;> omega

/-- The bounded read of byte 0 is the buffer's first byte, the address of the request. -/
theorem State.bufByte_zero_of_head? {s : State} {a : Byte} (h : s.buf.head? = some a) : s.bufByte 0 = a := by
  rw [State.bufByte, frameByte, ← List.head?_eq_getElem?, h, Option.getD_some]

/-- A transmission over a live serial peripheral, for a response closed with its CRC, which is never empty (R147). -/
theorem transmit_withCrc_of_live (body : List Byte) {s : State} (h : s.live) : transmit (withCrc body) s =
    { s with tx := s.tx ++ txGroup (withCrc body), dir := .rx, dre := true, txc := true } :=
  transmit_live _ s h (by simp [withCrc, crcBytes])

/-- The bytes of a read response to consecutive registers (R56). -/
theorem readResponse_map_range (addr func : Byte) (n : Nat) (reg : Nat → Word) :
    readResponse addr func ((List.range n).map reg) = withCrc ([addr, func, BitVec.ofNat 8 (2 * n)] ++
      (List.range n).flatMap fun k => [hi8 (reg k), lo8 (reg k)]) := by
  simp [readResponse, List.flatMap_map, beBytes]

/-- A read that stays in the store reads the clamped number of registers in ascending order (R119, R120). -/
theorem State.readRegs_clampedCount {start count : Word} {s : State}
    (h : start.toNat < s.params.nRegs ∨ count = 0) : s.readRegs start.toNat (s.clampedCount start count) =
      some ((List.range (s.clampedCount start count)).map fun k => s.regAt (start.toNat + k)) := by
  have hfits : s.clampedCount start count = 0 ∨ start.toNat + s.clampedCount start count ≤ s.params.nRegs :=
    (clamp_fits_iff _ _ _).2 (h.imp_right (congrArg BitVec.toNat))
  rw [State.readRegs_eq, if_pos hfits]

/-- What a read command of either function code leaves behind where it does not fault (R119, R122). -/
theorem readRegisters_of_live (func : Byte) {start count : Word} {s : State} {a : Byte} (hlive : s.live)
    (hbuf : s.buf.head? = some a) (h : start.toNat < s.params.nRegs ∨ count = 0) :
    readRegisters func start count s = .next { s with
      tx := s.tx ++ txGroup (withCrc ([a, func, BitVec.ofNat 8 (2 * s.clampedCount start count)] ++
        (List.range (s.clampedCount start count)).flatMap fun k =>
          [hi8 (s.regAt (start.toNat + k)), lo8 (s.regAt (start.toNat + k))]))
      dir := .rx
      dre := true
      txc := true } := by
  simp only [readRegisters, State.readRegs_clampedCount h, State.bufByte_zero_of_head? hbuf, readResponse_map_range,
    transmit_withCrc_of_live _ hlive]

/-- Settles O22: the read command with function byte 0x03. -/
theorem readHoldingRegistersResult : Obligations.ReadHoldingRegistersResult := by
  intro start count s a hlive hbuf
  exact ⟨fun h => ⟨_, readRegisters_of_live 0x03 hlive hbuf h, rfl⟩,
    fun hstart hcount => (readRegisters_fault_iff 0x03 start count s).2 ⟨hstart, hcount⟩⟩

/-- Settles O23: the read command with function byte 0x04. -/
theorem readInputRegistersResult : Obligations.ReadInputRegistersResult := by
  intro start count s a hlive hbuf
  exact ⟨fun h => ⟨_, readRegisters_of_live 0x04 hlive hbuf h, rfl⟩,
    fun hstart hcount => (readRegisters_fault_iff 0x04 start count s).2 ⟨hstart, hcount⟩⟩

/-- A read of no register is answered with the empty response, from any start (R124). -/
theorem readRegisters_zero_of_live (func : Byte) (start : Word) {s : State} {a : Byte} (hlive : s.live)
    (hbuf : s.buf.head? = some a) : readRegisters func start 0 s = .next { s with
      tx := s.tx ++ txGroup (withCrc [a, func, 0])
      dir := .rx
      dre := true
      txc := true } := by
  obtain ⟨-, -, -, -, hzero⟩ := clampCases s.params.nRegs start.toNat (0 : Word).toNat
  have hcount : s.clampedCount start 0 = 0 := hzero.2 rfl
  have hread := readRegisters_of_live func (start := start) hlive hbuf (.inr rfl)
  rwa [hcount] at hread

/-- Settles O24: both read commands answer a count of zero with the empty response. -/
theorem readOfZeroRegistersIsAnswered : Obligations.ReadOfZeroRegistersIsAnswered := by
  intro start s a hlive hbuf
  exact ⟨⟨_, readRegisters_zero_of_live 0x03 start hlive hbuf, rfl, rfl⟩,
    ⟨_, readRegisters_zero_of_live 0x04 start hlive hbuf, rfl, rfl⟩⟩

end Sys2Proof.Machine

namespace Sys2Proof

open Machine

/-- A frame the encoder writes is decoded to its instruction. -/
theorem decodeFrame_of_encode_eq {fill : Nat → Byte} {addr : Byte} {i : Instr} {frame : List Byte}
    (hi : i.wellFormed = true) (h : encode addr i = frame) : decodeFrame fill addr frame = .instr i :=
  h ▸ decodeOfEncodeIsInstruction i addr fill hi

/-- Settles O2: the first five frames are the encoder's own; the unknown code's frame carries a payload, which the
encoder does not write, and the last has its CRC bytes swapped, so for these two the decoder is run. -/
theorem specFramesDecode : Obligations.SpecFramesDecode := by
  refine ⟨decodeFrame_of_encode_eq rfl ?_, decodeFrame_of_encode_eq rfl ?_, decodeFrame_of_encode_eq rfl ?_,
    decodeFrame_of_encode_eq rfl ?_, decodeFrame_of_encode_eq rfl ?_, ?_, ?_⟩ <;> decide

end Sys2Proof

/-! The write commands (R127 to R138): both write a list of values from a register on and answer. What they leave
behind, that the values are read back, and that a repetition changes nothing. -/

namespace Sys2Proof.Machine

/-- Writing what a register of the store already holds changes nothing: the form of the store is canonical. -/
theorem Memory.set_get {base : Word} {n i : Nat} {m : Memory} (hi : i < n) (h : Memory.wf base n m) :
    Memory.set base i (Memory.get base i m) m = m := by
  refine Memory.ext (Memory.set_wf _ hi h) h fun a => ?_
  rw [Memory.get_set _ _ _ _ _ h.1]
  split_ifs with ha
  · rw [ha]
  · rfl

/-- `m` is the store of `s` with the registers from `start` on overwritten by `vs` (R129). -/
structure Overwritten (s : State) (start : Nat) (vs : List Word) (m : Memory) : Prop where
  wf : Memory.wf s.params.initBase s.params.nRegs m
  written : ∀ k < vs.length, some (Memory.get s.params.initBase (start + k) m) = vs[k]?
  kept : ∀ a, a < start ∨ start + vs.length ≤ a → Memory.get s.params.initBase a m = s.regAt a

/-- A multi-register write that stays in the store, or writes nothing, overwrites its registers and nothing else. -/
theorem State.writeRegs_overwritten {start : Nat} {vs : List Word} {s : State}
    (hwf : Memory.wf s.params.initBase s.params.nRegs s.hreg)
    (hfits : vs.length = 0 ∨ start + vs.length ≤ s.params.nRegs) :
    ∃ m, Overwritten s start vs m ∧ State.writeRegs start vs s = some { s with hreg := m } := by
  obtain ⟨t, ht⟩ := Option.isSome_iff_exists.1 ((State.writeRegs_isSome vs start s).2 hfits)
  have hframe := State.writeRegs_frame ht
  have hparams : t.params = s.params := by rw [hframe]
  have hget (a : Nat) : Memory.get s.params.initBase a t.hreg = t.regAt a := by rw [State.regAt, hparams]
  refine ⟨t.hreg, ⟨State.writeRegs_wf hwf ht, fun k hk => ?_, fun a ha => ?_⟩, by rw [ht, ← hframe]⟩
  · rw [hget, State.regAt_writeRegs hwf ht, if_pos (by omega), Nat.add_sub_cancel_left, List.getElem?_eq_getElem hk,
      Option.getD_some]
  · rw [hget, State.regAt_writeRegs hwf ht]
    split_ifs with hstart
    · rw [List.getElem?_eq_none (by omega), Option.getD_none]
    · rfl

/-- A multi-register write of the values the registers already hold changes nothing. -/
theorem State.writeRegs_of_held {s : State} (hwf : Memory.wf s.params.initBase s.params.nRegs s.hreg)
    (vs : List Word) : ∀ start : Nat, (vs.length = 0 ∨ start + vs.length ≤ s.params.nRegs) →
      (∀ k < vs.length, some (s.regAt (start + k)) = vs[k]?) → State.writeRegs start vs s = some s := by
  induction vs with
  | nil => intro start _ _; rfl
  | cons v vs ih =>
    intro start hfits hheld
    rw [List.length_cons] at hfits
    have hv : s.regAt start = v := Option.some.inj (hheld 0 (by simp))
    have hin : start < s.params.nRegs := by omega
    have hwrite : s.writeReg start v = some s := by
      rw [State.writeReg, if_pos hin, ← hv, State.regAt, Memory.set_get hin hwf]
    simp only [State.writeRegs, hwrite]
    refine ih (start + 1) (by omega) fun k hk => ?_
    have hnext := hheld (k + 1) (Nat.succ_lt_succ hk)
    rwa [← Nat.add_assoc, Nat.add_right_comm] at hnext

/-- What both write commands consist of: the writes in ascending order, then the response (R127, R129). -/
def writeThenAnswer (start : Nat) (vs : List Word) (resp : List Byte) (s : State) :
    Host.Outcome State Fault Refusal :=
  match State.writeRegs start vs s with
  | none => .fault .storeIndexOutOfRange
  | some t => .next (transmit resp t)

theorem execWrsr_eq (reg val : Word) (s : State) :
    execWrsr reg val s = writeThenAnswer reg.toNat [val] s.buf s := by
  unfold execWrsr writeThenAnswer
  simp only [State.writeRegs]
  cases s.writeReg reg.toNat val <;> rfl

theorem execWrmr_eq (start count : Word) (bytecount : Byte) (vals : List Word) (s : State) :
    execWrmr start count bytecount vals s = writeThenAnswer start.toNat (vals.take (s.clampedCount start count))
      (writeResponse (s.bufByte 0) 0x10 start (s.clampedCount start count)) s := rfl

/-- The state a completed write command leaves: the store `m`, and the response on the output trace. -/
def State.acknowledged (m : Memory) (resp : List Byte) (s : State) : State :=
  { s with hreg := m, tx := s.tx ++ txGroup resp, dir := .rx, dre := true, txc := true }

section

variable {start : Nat} {vs : List Word} {resp : List Byte} {s : State}

/-- Over a live serial peripheral a write within the store completes (R127, R129, R147). -/
theorem writeThenAnswer_of_live (hwf : Memory.wf s.params.initBase s.params.nRegs s.hreg) (hlive : s.live)
    (hresp : resp ≠ []) (hfits : vs.length = 0 ∨ start + vs.length ≤ s.params.nRegs) :
    ∃ m, Overwritten s start vs m ∧ writeThenAnswer start vs resp s = .next (s.acknowledged m resp) := by
  obtain ⟨m, hm, hwrite⟩ := State.writeRegs_overwritten hwf hfits
  refine ⟨m, hm, ?_⟩
  rw [writeThenAnswer, hwrite]
  exact congrArg Host.Outcome.next (transmit_live resp _ hlive hresp)

/-- The same write once more, in the state it left: the store stays, and the response is sent again (R135). -/
theorem writeThenAnswer_again {m : Memory} (hm : Overwritten s start vs m) (hlive : s.live) (hresp : resp ≠ [])
    (hfits : vs.length = 0 ∨ start + vs.length ≤ s.params.nRegs) :
    writeThenAnswer start vs resp (s.acknowledged m resp) =
      .next ((s.acknowledged m resp).acknowledged m resp) := by
  rw [writeThenAnswer, State.writeRegs_of_held (s := s.acknowledged m resp) hm.wf vs start hfits hm.written]
  exact congrArg Host.Outcome.next (transmit_live resp _ hlive hresp)

end

/-- A well-formed write-multiple takes as many of its values as the clamp says, and with its start in range or a count
of zero they stay in the store (R120, R130). -/
theorem take_clampedCount_fits {start count : Word} {bytecount : Byte} {vals : List Word} {s : State}
    (hi : (Instr.wrmr start count bytecount vals).wellFormed = true) (h : start.toNat < s.params.nRegs ∨ count = 0) :
    (vals.take (s.clampedCount start count)).length = 0 ∨
      start.toNat + (vals.take (s.clampedCount start count)).length ≤ s.params.nRegs := by
  rw [length_take_clampedCount hi]
  exact (clamp_fits_iff _ _ _).2 (h.imp_right (congrArg BitVec.toNat))

theorem writeResponse_ne_nil (addr func : Byte) (start : Word) (count : Nat) :
    writeResponse addr func start count ≠ [] := by simp [writeResponse, withCrc]

/-- What WRSR leaves behind where it does not fault. -/
theorem execWrsr_of_live (val : Word) {reg : Word} {s : State}
    (hwf : Memory.wf s.params.initBase s.params.nRegs s.hreg) (hlive : s.live) (hbuf : s.buf ≠ [])
    (h : reg.toNat < s.params.nRegs) :
    ∃ m, Overwritten s reg.toNat [val] m ∧ execWrsr reg val s = .next (s.acknowledged m s.buf) := by
  rw [execWrsr_eq]
  exact writeThenAnswer_of_live hwf hlive hbuf (.inr h)

/-- What WRMR leaves behind where it does not fault. -/
theorem execWrmr_of_live {start count : Word} {bytecount : Byte} {vals : List Word} {s : State}
    (hi : (Instr.wrmr start count bytecount vals).wellFormed = true)
    (hwf : Memory.wf s.params.initBase s.params.nRegs s.hreg) (hlive : s.live)
    (h : start.toNat < s.params.nRegs ∨ count = 0) :
    ∃ m, Overwritten s start.toNat (vals.take (s.clampedCount start count)) m ∧
      execWrmr start count bytecount vals s = .next (s.acknowledged m
        (writeResponse (s.bufByte 0) 0x10 start (s.clampedCount start count))) := by
  rw [execWrmr_eq]
  exact writeThenAnswer_of_live hwf hlive (writeResponse_ne_nil _ _ _ _) (take_clampedCount_fits hi h)

/-- The registers WRMR wrote hold the values it carried. -/
theorem Overwritten.some_get_of_take {s : State} {start count : Word} {bytecount : Byte} {vals : List Word}
    {m : Memory} (hi : (Instr.wrmr start count bytecount vals).wellFormed = true)
    (hm : Overwritten s start.toNat (vals.take (s.clampedCount start count)) m) {k : Nat}
    (hk : k < s.clampedCount start count) :
    some (Memory.get s.params.initBase (start.toNat + k) m) = vals[k]? := by
  rw [hm.written k (by rwa [length_take_clampedCount hi]), List.getElem?_take_of_lt hk]

/-- Settles O25: WRSR overwrites one register and echoes the buffer. -/
theorem writeSingleResult : Obligations.WriteSingleResult := by
  intro reg val s hwf hlive hbuf
  refine ⟨fun h => ?_, (execWrsr_fault_iff reg val s).2⟩
  obtain ⟨m, hm, hexec⟩ := execWrsr_of_live val hwf hlive hbuf h
  refine ⟨_, hexec, fun k => ?_, rfl⟩
  split_ifs with hk
  · rw [hk]
    exact Option.some.inj (hm.written 0 Nat.one_pos)
  · exact hm.kept k (by rw [List.length_singleton]; omega)

/-- The bytes of a write response whose count fits one byte (R58). -/
theorem writeResponse_of_lt_256 (addr func : Byte) (start : Word) {n : Nat} (h : n < 256) :
    writeResponse addr func start n = withCrc [addr, func, hi8 start, lo8 start, 0x00, BitVec.ofNat 8 n] := by
  have hcount : BitVec.ofNat 16 n = be16 0x00 (BitVec.ofNat 8 n) := by
    apply BitVec.eq_of_toNat_eq
    have hhigh : (0x00 : Byte).toNat = 0 := rfl
    rw [be16_toNat, BitVec.toNat_ofNat, BitVec.toNat_ofNat, hhigh]
    omega
  rw [writeResponse, hcount, beBytes, beBytes, hi8_be16, lo8_be16]
  rfl

/-- Settles O26: WRMR overwrites the clamped number of registers and answers with that number. -/
theorem writeMultipleResult : Obligations.WriteMultipleResult := by
  intro start count bytecount vals s a hi hwf hlive hbuf n
  refine ⟨fun h => ?_, fun hstart hcount => (execWrmr_fault_iff hi s).2 ⟨hstart, hcount⟩⟩
  obtain ⟨m, hm, hexec⟩ := execWrmr_of_live hi hwf hlive h
  have hn : n ≤ 127 := clamp_le _ _ _
  have hresp := writeResponse_of_lt_256 a 0x10 start (n := n) (by omega)
  rw [State.bufByte_zero_of_head? hbuf, show s.clampedCount start count = n from rfl, hresp] at hexec
  exact ⟨_, hexec, fun k hk => hm.some_get_of_take hi hk,
    fun k hk => hm.kept k (by rwa [length_take_clampedCount hi]), rfl⟩

/-- A read of one register of the store is answered with its value (R119, R122). -/
theorem readRegisters_one_of_live (func : Byte) {reg : Word} {s : State} {a : Byte} (hlive : s.live)
    (hbuf : s.buf.head? = some a) (h : reg.toNat < s.params.nRegs) : ∃ t, readRegisters func reg 1 s = .next t ∧
      t.tx = s.tx ++ txGroup (withCrc [a, func, 0x02, hi8 (s.regAt reg.toNat), lo8 (s.regAt reg.toNat)]) := by
  obtain ⟨-, hfits, -⟩ := clampCases s.params.nRegs reg.toNat (1 : Word).toNat
  have hcount : s.clampedCount reg 1 = 1 := hfits h h
  have hread := readRegisters_of_live func (count := 1) hlive hbuf (.inl h)
  rw [hcount] at hread
  exact ⟨_, hread, rfl⟩

/-- RDHR and RDIR answer `val` for the register in every state in which it holds what it holds in `t` (R136). -/
def ReadsBack (reg val : Word) (t : State) : Prop :=
  ∀ (u : State) (b : Byte), u.params = t.params → u.regAt reg.toNat = t.regAt reg.toNat → u.live →
    u.buf.head? = some b →
    (∃ v, exec (.rdhr reg 1) u = .next v ∧
      v.tx = u.tx ++ txGroup (withCrc [b, 0x03, 0x02, hi8 val, lo8 val])) ∧
    (∃ v, exec (.rdir reg 1) u = .next v ∧
      v.tx = u.tx ++ txGroup (withCrc [b, 0x04, 0x02, hi8 val, lo8 val]))

theorem readsBack_of_regAt {reg val : Word} {t : State} (h : reg.toNat < t.params.nRegs)
    (hval : t.regAt reg.toNat = val) : ReadsBack reg val t := by
  intro u b hparams hreg hlive hbuf
  rw [← hval, ← hreg]
  rw [← hparams] at h
  exact ⟨readRegisters_one_of_live 0x03 hlive hbuf h, readRegisters_one_of_live 0x04 hlive hbuf h⟩

/-- Settles O27: the overwritten registers hold the values written, and a read answers what its register holds. -/
theorem writeThenReadReturnsValue : Obligations.WriteThenReadReturnsValue := by
  refine ⟨fun reg val s hwf hlive hbuf h => ?_, fun start count bytecount vals s hi hwf hlive hbuf h => ?_⟩
  · obtain ⟨m, hm, hexec⟩ := execWrsr_of_live val hwf hlive hbuf h
    exact ⟨_, hexec, rfl, hlive, rfl, readsBack_of_regAt h (Option.some.inj (hm.written 0 Nat.one_pos))⟩
  · obtain ⟨m, hm, hexec⟩ := execWrmr_of_live hi hwf hlive (.inl h)
    refine ⟨_, hexec, rfl, hlive, rfl, fun reg val hle hlt hval => ?_⟩
    obtain ⟨k, hk⟩ := Nat.exists_eq_add_of_le hle
    rw [hk, Nat.add_sub_cancel_left] at hval
    have hclamp : k < s.clampedCount start count := Nat.lt_of_add_lt_add_left (hk ▸ hlt)
    have hfits := take_clampedCount_fits hi (.inl h)
    rw [length_take_clampedCount hi] at hfits
    refine readsBack_of_regAt (show reg.toNat < s.params.nRegs by omega) ?_
    rw [hk]
    exact Option.some.inj ((hm.some_get_of_take hi hclamp).trans hval)

/-- Settles O28: the second run writes what the registers already hold, and sends the response again. -/
theorem repeatedWriteIsIdempotent : Obligations.RepeatedWriteIsIdempotent := by
  refine ⟨fun start count bytecount vals s hi hwf hlive _ h => ?_, fun reg val s hwf hlive hbuf h => ?_⟩
  · obtain ⟨m, hm, hexec⟩ := execWrmr_of_live hi hwf hlive h
    exact ⟨_, _, _, hexec,
      writeThenAnswer_again hm hlive (writeResponse_ne_nil _ _ _ _) (take_clampedCount_fits hi h), rfl, rfl, rfl⟩
  · obtain ⟨m, hm, hexec⟩ := execWrsr_of_live val hwf hlive hbuf h
    exact ⟨_, _, _, hexec, (execWrsr_eq _ _ _).trans (writeThenAnswer_again hm hlive hbuf (.inr h)), rfl, rfl, rfl⟩

end Sys2Proof.Machine

/-! The refused commands and the unknown function codes (R139 to R146). -/

namespace Sys2Proof.Machine

/-- What a refused command leaves behind; `code` is its function code with bit 7 set (R144). -/
theorem illegalFunction_of_live {func code : Byte} (hcode : func ||| 0x80 = code) {s : State} {a : Byte}
    (hlive : s.live) (hbuf : s.buf.head? = some a) :
    illegalFunction func s = .next { s with
      tx := s.tx ++ txGroup (withCrc [a, code, 0x01])
      dir := .rx
      dre := true
      txc := true } := by
  rw [illegalFunction, State.bufByte_zero_of_head? hbuf, exceptionResponse, hcode, Config.excIllegalFunction,
    transmit_withCrc_of_live _ hlive]

/-- Settles O29: each of the four commands is the common refusal with its own function code. -/
theorem illegalFunctionResult : Obligations.IllegalFunctionResult := by
  intro s a hlive hbuf answered
  exact ⟨⟨_, illegalFunction_of_live (func := 0x01) (code := 0x81) rfl hlive hbuf, rfl⟩,
    ⟨_, illegalFunction_of_live (func := 0x02) (code := 0x82) rfl hlive hbuf, rfl⟩,
    ⟨_, illegalFunction_of_live (func := 0x05) (code := 0x85) rfl hlive hbuf, rfl⟩,
    ⟨_, illegalFunction_of_live (func := 0x0F) (code := 0x8F) rfl hlive hbuf, rfl⟩⟩

/-- Settles O30: the arm of an unknown function code answers with the state it was given (R143). -/
theorem otherFunctionCodeDoesNothing : Obligations.OtherFunctionCodeDoesNothing := by
  intro func s
  rw [exec, execOther]

end Sys2Proof.Machine

/-! The transmitter over a live and over a stalled serial peripheral, and who may use it (R147 to R153, R194). -/

namespace Sys2Proof.Machine

/-- Settles O32: what a transmission over a live serial peripheral leaves behind is known in full. -/
theorem transmitSendsEveryByte : Obligations.TransmitSendsEveryByte := by
  intro resp s hlive hresp
  rw [transmit_live resp s hlive hresp, txGroup]

/-! A peripheral that answers a limited number of waits (R152). -/

theorem waitDre_of_unanswered {s : State} (hdre : s.dre = false) (hs : s.stall = some 0) : waitDre s = none := by
  simp [waitDre, State.answer, hdre, hs]

theorem waitDre_of_answered {s : State} {k : Nat} (hdre : s.dre = false) (hs : s.stall = some (k + 1)) :
    waitDre s = some { s with dre := true, stall := some k } := by
  simp [waitDre, State.answer, hdre, hs]

theorem waitTxc_of_unanswered {s : State} (htxc : s.txc = false) (hs : s.stall = some 0) : waitTxc s = none := by
  simp [waitTxc, State.answer, htxc, hs]

theorem waitTxc_of_answered {s : State} {k : Nat} (htxc : s.txc = false) (hs : s.stall = some (k + 1)) :
    waitTxc s = some { s with dre := true, txc := true, stall := some k } := by
  simp [waitTxc, State.answer, htxc, hs]

/-- After a write the byte loop spends one answer on each byte and stays where the answers run out (R149, R152). -/
theorem sendBytes_of_busy (bs : List Byte) {s : State} {k : Nat} (hdre : s.dre = false) (htxc : s.txc = false)
    (hs : s.stall = some k) : sendBytes bs s =
      ({ s with tx := s.tx ++ (bs.take k).map .byte, stall := some (k - bs.length) }, decide (bs.length ≤ k)) := by
  induction bs generalizing s k with
  | nil => simp [sendBytes, ← hs]
  | cons b bs ih =>
    cases k with
    | zero => simp [sendBytes, waitDre_of_unanswered hdre hs, ← hs]
    | succ k =>
      simp only [sendBytes, waitDre_of_answered hdre hs]
      rw [ih (s := writeData b _) rfl rfl rfl]
      simp [writeData, hdre, htxc]

/-- The state in which a transmission begins its byte loop (R147). -/
def State.switchedToTx (s : State) : State := { s with dir := .tx, tx := s.tx ++ [.dirTx] }

/-- The state of a transmission that has written the bytes `sent` and has `left` answers left (R149). -/
def State.sending (sent : List Byte) (left : Nat) (s : State) : State :=
  { s with dir := .tx, tx := s.tx ++ .dirTx :: sent.map .byte, dre := false, txc := false, stall := some left }

/-- A transmission is stuck before a byte, or in the completion wait with every byte written (R152). -/
theorem transmit_of_stuck {resp : List Byte} {s t : State} {ended : Bool}
    (hloop : sendBytes resp s.switchedToTx = (t, ended)) (hwait : ended = true → waitTxc t = none) :
    transmit resp s = t := by
  rw [State.switchedToTx] at hloop
  rw [transmit, hloop]
  cases ended with
  | false => rfl
  | true => simp only [hwait rfl]

/-- Past the completion wait a transmission switches back to RX (R147, R150). -/
theorem transmit_of_answered {resp : List Byte} {s t u : State}
    (hloop : sendBytes resp s.switchedToTx = (t, true)) (hwait : waitTxc t = some u) :
    transmit resp s = { u with dir := .rx, tx := u.tx ++ [.dirRx] } := by
  rw [State.switchedToTx] at hloop
  simp only [transmit, hloop, hwait]

section
variable {b : Byte} {bs : List Byte} {s u : State} {k : Nat}
variable (hwait : waitDre s.switchedToTx = some u) (hu : u.stall = some k)
include hwait hu

/-- The byte loop once its first wait is over: the first byte needs no answer of the remaining ones (R149). -/
theorem sendBytes_of_first_wait : sendBytes (b :: bs) s.switchedToTx =
    (s.sending (b :: bs.take k) (k - bs.length), decide (bs.length ≤ k)) := by
  simp only [sendBytes, hwait]
  rw [sendBytes_of_busy bs (s := writeData b u) rfl rfl hu, waitDre_eq hwait]
  simp [writeData, State.sending, State.switchedToTx]

/-- After the first wait a transmission makes one for every other byte and the completion wait; with fewer answers it
is stuck (R149, R150, R152). -/
theorem transmit_stuck_of_le (hk : k ≤ bs.length) : transmit (b :: bs) s = s.sending (b :: bs.take k) 0 := by
  have hloop := sendBytes_of_first_wait (b := b) (bs := bs) hwait hu
  rw [Nat.sub_eq_zero_of_le hk] at hloop
  exact transmit_of_stuck hloop fun _ => waitTxc_of_unanswered rfl rfl

/-- With an answer for every wait the transmission completes, and every byte is sent (R147, R150). -/
theorem transmit_completes_of_lt (hk : bs.length < k) : transmit (b :: bs) s = { s with
    dir := .rx
    tx := s.tx ++ txGroup (b :: bs)
    dre := true
    txc := true
    stall := some (k - bs.length - 1) } := by
  have hloop := sendBytes_of_first_wait (b := b) (bs := bs) hwait hu
  rw [decide_eq_true hk.le, List.take_of_length_le hk.le] at hloop
  have hleft : k - bs.length = k - bs.length - 1 + 1 := by omega
  rw [transmit_of_answered hloop (waitTxc_of_answered rfl (congrArg some hleft))]
  simp [State.sending, txGroup]

end

/-- A full data register and no answer: no byte is sent (R149, R152). -/
theorem transmit_of_unanswered (b : Byte) (bs : List Byte) {s : State} (hdre : s.dre = false)
    (hs : s.stall = some 0) : transmit (b :: bs) s = s.switchedToTx := by
  have hloop : sendBytes (b :: bs) s.switchedToTx = (s.switchedToTx, false) := by
    simp only [sendBytes, waitDre_of_unanswered (s := s.switchedToTx) hdre hs]
  exact transmit_of_stuck hloop nofun

/-- Settles O33: an empty data register saves the first answer; a full one spends it, if there is one, and what is left
decides between the remaining waits. -/
theorem transmitWithoutAnswersIsStuck : Obligations.TransmitWithoutAnswersIsStuck := by
  intro resp s k hs hresp
  obtain ⟨b, bs, rfl⟩ := List.exists_cons_of_ne_nil hresp
  simp only [List.length_cons]
  cases hdre : s.dre with
  | true =>
    have hwait : waitDre s.switchedToTx = some s.switchedToTx := if_pos hdre
    simp only [if_true]
    exact ⟨fun hk => by rw [transmit_stuck_of_le hwait hs (by omega)]; rfl,
      fun hk => by rw [transmit_completes_of_lt hwait hs (by omega)]; rfl⟩
  | false =>
    simp only [Bool.false_eq_true, if_false]
    cases k with
    | zero => exact ⟨fun _ => by rw [transmit_of_unanswered b bs hdre hs]; rfl, fun hk => by omega⟩
    | succ k =>
      have hwait := waitDre_of_answered (s := s.switchedToTx) hdre hs
      exact ⟨fun hk => by rw [transmit_stuck_of_le hwait rfl (by omega)]; rfl,
        fun hk => by rw [transmit_completes_of_lt hwait rfl (by omega)]; rfl⟩

/-! A Decode stuck in its transmitter (R151, R152). -/

/-- A Reset happens only where one is scheduled (R181). -/
theorem nextEvent_ne_reset {s : State} (ha : s.agenda.head? ≠ some .reset) : (nextEvent s).1 ≠ .reset := by
  cases hforced : s.intakeForced with
  | true => simp [nextEvent_of_forced hforced ha]
  | false =>
    cases hagenda : s.agenda with
    | nil =>
      rw [nextEvent_of_agenda_nil hforced hagenda, idleEvent]
      split_ifs <;> simp
    | cons e rest =>
      rw [nextEvent_of_not_forced hforced hagenda]
      simpa [hagenda] using ha

/-- While a Decode is stuck an arrival can only lengthen the receive queue and a Tick does nothing; every other event
but a Reset has a false guard (R44, R114, R151, R152). -/
theorem EventEffect.of_stuck {s t : State} {e : Event} (h : EventEffect s t e) (hstuck : s.Stuck)
    (he : e ≠ .reset) : t = { s with rxq := t.rxq } := by
  obtain ⟨hdir, hrxie, hst⟩ := hstuck
  have hguard : s.dir ≠ .rx := by simp [hdir]
  cases e with
  | reset => exact absurd rfl he
  | rxArrive b => rw [h]
  | tick =>
    have htick : t = s := by rw [h, tick, hst]
    rw [htick]
  | rxIntake => exact absurd h.left (by simp [hrxie])
  | decode arr stall => exact absurd h.left hguard
  | appReadReg i => exact absurd h.left hguard
  | appWriteReg i v => exact absurd h.left hguard
  | appSetAddr a => exact absurd h.left hguard
  | appSetBaud n => exact absurd h.left hguard
  | serialStatus dre txc => exact absurd h.left hguard

/-- Settles O34: only the receive queue can differ after the step. -/
theorem onlyResetRecoversStuckTransmitter : Obligations.OnlyResetRecoversStuckTransmitter := by
  intro s t hfault hstuck hstep ha
  obtain ⟨-, heffect⟩ := step_effect hstep
  rw [heffect.of_stuck hstuck (nextEvent_ne_reset ha)]
  exact ⟨hstuck, hfault, rfl, rfl, rfl⟩

/-! The output trace (R30, R147). -/

/-- A command extends the trace by a group, complete or truncated, or not at all (R153). -/
theorem CommandEffect.tx_extends {s t : State} (h : CommandEffect s t) : s.tx <+: t.tx := by
  obtain ⟨-, htx⟩ | ⟨resp, -, htx⟩ | ⟨part, -, htx⟩ := h.sent
  · rw [htx]
  · exact ⟨_, htx.symm⟩
  · exact ⟨_, htx.symm⟩

/-- An event without a Fault leaves the trace alone, unless it is a Decode, which extends it (R147). -/
theorem EventEffect.tx {s t : State} {e : Event} (h : EventEffect s t e) (hf : t.fault = false) :
    t.tx = s.tx ∨ (s.tx <+: t.tx ∧ ∃ arr stall, e = .decode arr stall) := by
  cases e with
  | reset =>
    obtain rfl := h
    exact .inl rfl
  | rxArrive b =>
    obtain rfl := h
    exact .inl rfl
  | tick =>
    left
    obtain ⟨-, ht⟩ | ⟨-, -, ht⟩ | ⟨-, -, ht⟩ := tick_cases s <;> rw [h, ht]
  | rxIntake =>
    obtain ⟨-, b, rest, -, rfl⟩ := h
    exact .inl rfl
  | decode arr stall =>
    obtain ⟨u, rfl, hu, -⟩ := h.decode_of_no_fault hf
    exact .inr ⟨by rw [finishDecode_tx]; exact hu.tx_extends, arr, stall, rfl⟩
  | appReadReg i =>
    obtain ⟨-, ⟨-, rfl⟩ | ⟨-, rfl⟩⟩ := h
    · exact .inl rfl
    · simp at hf
  | appWriteReg i v =>
    obtain ⟨-, ⟨-, rfl⟩ | ⟨-, rfl⟩⟩ := h
    · exact .inl rfl
    · simp at hf
  | appSetAddr a =>
    obtain ⟨-, rfl⟩ := h
    exact .inl rfl
  | appSetBaud n =>
    obtain ⟨-, -, -, rfl⟩ := h
    exact .inl rfl
  | serialStatus dre txc =>
    obtain ⟨-, rfl⟩ := h
    exact .inl rfl

/-- Settles O45: a step is the effect of its next event, and only a Decode extends the trace. -/
theorem onlyDecodeTransmits : Obligations.OnlyDecodeTransmits := by
  intro s t hstep hf
  obtain ⟨-, heffect⟩ := step_effect hstep
  obtain htx | ⟨hextends, hdecode⟩ := heffect.tx hf
  · exact ⟨by rw [htx, beginEvent_tx], fun hne => absurd htx hne⟩
  · exact ⟨hextends, fun _ => hdecode⟩

end Sys2Proof.Machine

/-! Reset, and the Fault it alone leaves (R113, R163, R180 to R182). -/

namespace Sys2Proof.Machine

/-- A scheduled Reset is the next event even where an intake is due (R181, log 26). -/
theorem nextEvent_of_reset {s : State} {rest : List Event} (ha : s.agenda = .reset :: rest) :
    nextEvent s = (.reset, rest) := by
  rw [nextEvent, ha]

/-- A scheduled Reset happens in every state: it is the one event without the guard `fault = 0` (R163, R181). -/
theorem step_of_reset {s : State} {rest : List Event} (ha : s.agenda = .reset :: rest) :
    step s = .next (resetEvent (beginEvent rest s)) := by
  simp [step, machineStep, nextEvent_of_reset ha, runEvent]

/-- A faulted state has no next state unless a Reset is scheduled (R163). -/
theorem step_of_fault {s : State} (hfault : s.fault = true) (ha : s.agenda.head? ≠ some .reset) :
    step s = .fault .storeIndexOutOfRange := by
  simp [step, machineStep, hfault, nextEvent_ne_reset ha]

/-- Settles O36: the state after a Reset has the store and the elements of `State.resetWith`, whose values O37 lists. -/
theorem resetRestoresEveryElement : Obligations.ResetRestoresEveryElement := by
  intro s rest ha
  exact ⟨_, step_of_reset ha, resetStateValues s.params⟩

/-- Settles O35: the command's fault becomes `raiseFault`, which keeps the agenda, and the mark it sets leaves Reset as
the only event. -/
theorem faultIsTakenAndOnlyResetLeavesIt : Obligations.FaultIsTakenAndOnlyResetLeavesIt := by
  refine ⟨?taken, fun s hfault ha => step_of_fault hfault ha, ?left⟩
  case taken =>
    intro s arr stall rest i hnext hfetch hexec
    have hstep := stepRunsDecodedInstruction s arr stall rest i hnext hfetch
    rw [hexec] at hstep
    exact ⟨_, hstep, raiseFault_fault _, raiseFault_agenda _⟩
  case left =>
    intro s _ ha
    obtain ⟨rest, hagenda⟩ := List.head?_eq_some_iff.1 ha
    exact ⟨_, step_of_reset hagenda, resetEvent_fault _⟩

end Sys2Proof.Machine

/-! The application's events outside a Decode (R172, R173). -/

namespace Sys2Proof.Machine

theorem outsideDecode_of_rx {s : State} (hdir : s.dir = .rx) (run : Host.Outcome State Fault Refusal) :
    outsideDecode s run = run := by
  simp [outsideDecode, State.decoding, hdir]

section
variable {s : State} {i : Nat} (hdir : s.dir = .rx)
include hdir

theorem appReadReg_of_lt (hi : i < s.params.nRegs) :
    appReadReg i s = .next { s with appOut := s.appOut ++ [s.regAt i] } := by
  rw [appReadReg, outsideDecode_of_rx hdir, State.readReg, if_pos hi]

theorem appReadReg_of_le (hi : s.params.nRegs ≤ i) : appReadReg i s = .next (raiseFault s) := by
  rw [appReadReg, outsideDecode_of_rx hdir, State.readReg, if_neg hi.not_gt]

theorem appWriteReg_of_lt (v : Word) (hi : i < s.params.nRegs) :
    appWriteReg i v s = .next { s with hreg := Memory.set s.params.initBase i v s.hreg } := by
  rw [appWriteReg, outsideDecode_of_rx hdir, State.writeReg, if_pos hi]

theorem appWriteReg_of_le (v : Word) (hi : s.params.nRegs ≤ i) : appWriteReg i v s = .next (raiseFault s) := by
  rw [appWriteReg, outsideDecode_of_rx hdir, State.writeReg, if_neg hi.not_gt]

theorem appSetAddr_of_rx (a : Byte) : appSetAddr a s = .next { s with addr := a } :=
  outsideDecode_of_rx hdir _

theorem appSetBaud_of_idle {n : Nat} (hst : s.tmrSt = .idle) (hn : 1 ≤ n) :
    appSetBaud n s = .next { s with thresh := n } := by
  rw [appSetBaud, outsideDecode_of_rx hdir, if_neg (not_not.2 hst), if_neg (Nat.one_le_iff_ne_zero.1 hn)]

theorem appSetBaud_of_not_idle (n : Nat) (hst : s.tmrSt ≠ .idle) : appSetBaud n s = .refused .baudNotIdle := by
  rw [appSetBaud, outsideDecode_of_rx hdir, if_pos hst]

end

/-- Settles O38: within the store `Memory.get_set` says what the write changed; from N_REGS on both accesses raise the
Fault. -/
theorem appAccessesOneRegister : Obligations.AppAccessesOneRegister := by
  rintro s i v rest hdir ⟨hsorted, -⟩
  refine ⟨fun hnext hi => ?read, fun hnext hi => ?write, fun hnext hi => ?outside⟩
  case read =>
    have hstep := (step_of_eventNext hnext).trans (appReadReg_of_lt (s := beginEvent rest s) hdir hi)
    exact ⟨_, hstep, rfl⟩
  case write =>
    have hstep := (step_of_eventNext hnext).trans (appWriteReg_of_lt (s := beginEvent rest s) hdir v hi)
    exact ⟨_, hstep, fun k => Memory.get_set _ _ _ _ k hsorted, rfl⟩
  case outside =>
    refine ⟨raiseFault (beginEvent rest s), ?_, raiseFault_fault _⟩
    obtain hread | hwrite := hnext
    · exact (step_of_eventNext hread).trans (appReadReg_of_le (s := beginEvent rest s) hdir hi)
    · exact (step_of_eventNext hwrite).trans (appWriteReg_of_le (s := beginEvent rest s) hdir v hi)

/-- Settles O39: AppSetAddr has no guard but the direction, AppSetBaud asks for state Idle as well. -/
theorem appReconfigures : Obligations.AppReconfigures := by
  intro s a n rest hdir
  refine ⟨fun hnext => ?addr, fun hnext hst hn => ?baud, fun hnext hst => ?refused⟩
  case addr =>
    exact ⟨_, (step_of_eventNext hnext).trans (appSetAddr_of_rx (s := beginEvent rest s) hdir a), rfl⟩
  case baud =>
    exact ⟨_, (step_of_eventNext hnext).trans (appSetBaud_of_idle (s := beginEvent rest s) hdir hst hn), rfl⟩
  case refused =>
    exact (step_of_eventNext hnext).trans (appSetBaud_of_not_idle (s := beginEvent rest s) hdir n hst)

end Sys2Proof.Machine
